-- ==== Sys2Proof/Word.lean ====
section
/-! DEFINITION. The word types of the block (00_scope.md R7, R9): bytes, 32-bit words, 64-bit words,
72-bit command words, 256-bit digests, 64-byte blocks, and the eight-word vector that holds a chaining
value or the working variables a to h. -/

namespace Sys2Proof

/-- `B8` of R9. -/
abbrev Byte := BitVec 8

/-- `W32` of R9, the width WORD of R7. -/
abbrev Word := BitVec 32

/-- `W64` of R9. -/
abbrev Word64 := BitVec 64

/-- A command word `CW`, CMDW = 72 bits (R7, R70). -/
abbrev CmdWord := BitVec 72

/-- A 256-bit digest value, DIGESTW of R7. -/
abbrev DigestWord := BitVec 256

/-- A 64-byte block, BLOCK of R7; index 0 is the first byte. -/
abbrev Block := Vector Byte 64

/-- Eight 32-bit words. As a chaining value, `a` is H[0] and `h` is H[7]; as working variables they
are a to h (40_compression.md R110, R111: `(a, …, h) <- (Hv[0], …, Hv[7])`). -/
structure HashWords where
  a : Word
  b : Word
  c : Word
  d : Word
  e : Word
  f : Word
  g : Word
  h : Word
deriving DecidableEq, Repr

end Sys2Proof
end

