-- ==== Sys2Proof/Config.lean ====
section
/-! DEFINITION. What an implementation fixes (the parameters of 00_scope.md R7) and the free values of
the model: opaque constants with no body, so that no proof can see what they are. -/

namespace Sys2Proof

/-- P_HARVESTER (R7): is the HARV front end built in? -/
inductive Harvester where
  | present
  | absent
deriving DecidableEq, Repr

/-- P_MEAN_CMP (R7, 42_harvester.md R182): how a sample is compared with the running mean. -/
inductive MeanCmp where
  | exact
  | hostFloat
deriving DecidableEq, Repr

/-- P_DATAPATH (R7, 40_compression.md R113 to R115): timing only. -/
inductive Datapath where
  | unrolled
  | pipelined
  | iterative (k : Nat)
deriving DecidableEq, Repr

/-- Where a host address map places the command, status and result ports (20_memory.md R58). The spec gives
the three ports and no form of an address. DESIGN CHOICE (log 11): one address each, of any size. -/
structure PortPlacement where
  command : Nat
  status  : Nat
  result  : Nat
deriving DecidableEq, Repr

/-- The parameters of one built block (R7), plain data. -/
structure Params where
  harvester : Harvester
  meanCmp   : MeanCmp
  datapath  : Datapath
  /-- P_LAT_C: cycles of one compression. -/
  latC      : Nat
  /-- P_BASE: the placement of the ports in a host address map, if there is one. "The block fixes no address
  map" and no rule depends on it (20_memory.md R58), so no command and no edge reads it (log 11). -/
  base      : Option PortPlacement
deriving DecidableEq, Repr

/-- The numbers of rounds a cycle that R7 allows for ITERATIVE(k). -/
def iterativeWidths : List Nat := [1, 2, 4, 8, 16, 32]

/-- The values R7 and R114 allow: P_LAT_C is at least 1, and at least 64 / k for ITERATIVE(k); any
placement. -/
def Params.wf (p : Params) : Bool :=
  match p.datapath with
  | .unrolled => decide (1 ≤ p.latC)
  | .pipelined => decide (1 ≤ p.latC)
  | .iterative k => iterativeWidths.contains k && decide (64 / k ≤ p.latC)

/-- The defaults of R7 (PRESENT, EXACT). The datapath, its latency and the placement are OPEN there.
DESIGN CHOICE (log 5, log 11): UNROLLED, 1 cycle and no address map; no command's effect depends on
them. -/
def Params.default : Params :=
  { harvester := .present, meanCmp := .exact, datapath := .unrolled, latC := 1, base := none }

/-- FREE VALUE (log 4): byte `j` of the n-th unspecified content of BUF (10_state.md R22, R38). No body:
nothing can be proved about its value. -/
opaque Config.freeByte : Nat → Nat → Byte

/-- FREE VALUE (log 6): MEANBIT under P_MEAN_CMP = HOST_FLOAT, "a configuration function of `(d, n, s)`
alone, of which nothing else is assumed" (42_harvester.md R182). -/
opaque Config.hostFloatMeanBit : Int → Nat → Int → Bool

/-- FREE VALUE (log 9): what `res_src` and `res_data` carry after the n-th clock edge while `res_valid` is
0 (70_reset_and_hazards.md R229 gives them no value then). -/
opaque Config.idleResult : Nat → BitVec 1 × DigestWord

/-- FREE VALUE (log 9): what `status` carries after the n-th clock edge while `rst` is 1 on a block that was
never reset ("The state before the first system reset is unspecified", 70_reset_and_hazards.md R232). -/
opaque Config.powerUpStatus : Nat → BitVec 4

end Sys2Proof
end

