-- ==== Sys2Proof/Syntax.lean ====
section
/-! DEFINITION. The twelve commands of spec/opcode_table.json (30_encoding.md R72), one constructor a row.
An operand is kept at exactly the width the command reads: the ignored bits of DATA (R75) are no part of
the command. -/

namespace Sys2Proof

/-- One constructor per row of spec/opcode_table.json. -/
inductive Instr where
  /-- NOP, OP 0x00 (R140). -/
  | nop
  /-- RESET, OP 0x01 (R141). -/
  | reset
  /-- DIGEST, OP 0x02 (R152). -/
  | digest
  /-- UPD1, OP 0x10 (R143): one byte, DATA[7:0]. -/
  | upd1 (imm : BitVec 8)
  /-- UPD2, OP 0x11 (R144): DATA[15:0]. -/
  | upd2 (imm : BitVec 16)
  /-- UPD3, OP 0x12 (R145): DATA[23:0]. -/
  | upd3 (imm : BitVec 24)
  /-- UPD4, OP 0x13 (R146): DATA[31:0]. -/
  | upd4 (imm : BitVec 32)
  /-- UPD5, OP 0x14 (R147): DATA[39:0]. -/
  | upd5 (imm : BitVec 40)
  /-- UPD6, OP 0x15 (R148): DATA[47:0]. -/
  | upd6 (imm : BitVec 48)
  /-- UPD7, OP 0x16 (R149): DATA[55:0]. -/
  | upd7 (imm : BitVec 56)
  /-- UPD8, OP 0x17 (R150): DATA[63:0]. -/
  | upd8 (imm : BitVec 64)
  /-- SMPL, OP 0x20 (R181): the duration sample, DATA[63:0]. -/
  | smpl (data : BitVec 64)
deriving DecidableEq, Repr

end Sys2Proof
end

