-- ==== Sys2Proof/WellFormed.lean ====
section
/-! DEFINITION. When a command is a command of a given block. Operand ranges are in the types of
Syntax.lean; the one check left is that SMPL exists "only when `P_HARVESTER = PRESENT`"
(30_encoding.md R72). -/

namespace Sys2Proof

/-- The command exists on a block with this P_HARVESTER (R72, R76). -/
def Instr.wellFormed (hv : Harvester) : Instr → Bool
  | .nop => true
  | .reset => true
  | .digest => true
  | .upd1 _ => true
  | .upd2 _ => true
  | .upd3 _ => true
  | .upd4 _ => true
  | .upd5 _ => true
  | .upd6 _ => true
  | .upd7 _ => true
  | .upd8 _ => true
  | .smpl _ => decide (hv = .present)

end Sys2Proof
end

