-- ==== Sys2Proof/Decode.lean ====
section
/-! DEFINITION. Decoding and encoding of the 72-bit command word (30_encoding.md): OP is bits 71:64, DATA is
bits 63:0 (R70), and OP alone, with P_HARVESTER, decides the command (R71, R78). -/

namespace Sys2Proof

/-- What a command word is (R78): exactly one command, or a reserved opcode, by name. -/
inductive Decoded where
  /-- A command of R72. -/
  | command (i : Instr)
  /-- A reserved OP (R76). -/
  | reserved (op : BitVec 8)
deriving DecidableEq, Repr

/-- `OP = CW[71:64]` (R70). -/
def opField (w : CmdWord) : BitVec 8 := w.extractLsb' 64 8

/-- `DATA = CW[63:0]` (R70). -/
def dataField (w : CmdWord) : Word64 := w.extractLsb' 0 64

/-- The command word of an opcode and an operand, `OP ‖ DATA` (R70; the assembler's raw form `.cw`, R79). -/
def rawWord (op : BitVec 8) (data : Word64) : CmdWord := op ++ data

/-- Decoding (R72, R76, R78). An UPDn keeps only DATA[8n-1:0] and NOP, RESET and DIGEST keep nothing of
DATA: the other bits are ignored, "a decoder must accept any value in them" (R75). -/
def decode (hv : Harvester) (w : CmdWord) : Decoded :=
  let op := opField w
  let data := dataField w
  if op = 0x00#8 then .command .nop
  else if op = 0x01#8 then .command .reset
  else if op = 0x02#8 then .command .digest
  else if op = 0x10#8 then .command (.upd1 (data.extractLsb' 0 8))
  else if op = 0x11#8 then .command (.upd2 (data.extractLsb' 0 16))
  else if op = 0x12#8 then .command (.upd3 (data.extractLsb' 0 24))
  else if op = 0x13#8 then .command (.upd4 (data.extractLsb' 0 32))
  else if op = 0x14#8 then .command (.upd5 (data.extractLsb' 0 40))
  else if op = 0x15#8 then .command (.upd6 (data.extractLsb' 0 48))
  else if op = 0x16#8 then .command (.upd7 (data.extractLsb' 0 56))
  else if op = 0x17#8 then .command (.upd8 data)
  else if op = 0x20#8 ∧ hv = .present then .command (.smpl data)
  else .reserved op

/-- The OP of each command (R72). -/
def Instr.opcode : Instr → BitVec 8
  | .nop => 0x00#8
  | .reset => 0x01#8
  | .digest => 0x02#8
  | .upd1 _ => 0x10#8
  | .upd2 _ => 0x11#8
  | .upd3 _ => 0x12#8
  | .upd4 _ => 0x13#8
  | .upd5 _ => 0x14#8
  | .upd6 _ => 0x15#8
  | .upd7 _ => 0x16#8
  | .upd8 _ => 0x17#8
  | .smpl _ => 0x20#8

/-- The DATA field the assembler writes: the operand in the low bits, "ignored bits as 0" (R75, R79). -/
def Instr.operand : Instr → Word64
  | .nop => 0
  | .reset => 0
  | .digest => 0
  | .upd1 imm => imm.setWidth 64
  | .upd2 imm => imm.setWidth 64
  | .upd3 imm => imm.setWidth 64
  | .upd4 imm => imm.setWidth 64
  | .upd5 imm => imm.setWidth 64
  | .upd6 imm => imm.setWidth 64
  | .upd7 imm => imm.setWidth 64
  | .upd8 imm => imm
  | .smpl data => data

/-- The command word of a command (R70, R72, R79). -/
def encode (i : Instr) : CmdWord := rawWord i.opcode i.operand

/-- One row of the opcode table of R72 as spec/opcode_table.json writes it: a word is the row's when its
bits under `mask` equal `pattern`. -/
structure OpcodeRow where
  mnemonic : String
  pattern  : CmdWord
  mask     : CmdWord
deriving DecidableEq, Repr

/-- spec/opcode_table.json: mnemonic, match and mask of each row. -/
def opcodeRows : List OpcodeRow :=
  [ ⟨"NOP",    0x000000000000000000#72, 0xFF0000000000000000#72⟩,
    ⟨"RESET",  0x010000000000000000#72, 0xFF0000000000000000#72⟩,
    ⟨"DIGEST", 0x020000000000000000#72, 0xFF0000000000000000#72⟩,
    ⟨"UPD1",   0x100000000000000000#72, 0xFF0000000000000000#72⟩,
    ⟨"UPD2",   0x110000000000000000#72, 0xFF0000000000000000#72⟩,
    ⟨"UPD3",   0x120000000000000000#72, 0xFF0000000000000000#72⟩,
    ⟨"UPD4",   0x130000000000000000#72, 0xFF0000000000000000#72⟩,
    ⟨"UPD5",   0x140000000000000000#72, 0xFF0000000000000000#72⟩,
    ⟨"UPD6",   0x150000000000000000#72, 0xFF0000000000000000#72⟩,
    ⟨"UPD7",   0x160000000000000000#72, 0xFF0000000000000000#72⟩,
    ⟨"UPD8",   0x170000000000000000#72, 0xFF0000000000000000#72⟩,
    ⟨"SMPL",   0x200000000000000000#72, 0xFF0000000000000000#72⟩ ]

/-- The word belongs to the row. -/
def OpcodeRow.covers (r : OpcodeRow) (w : CmdWord) : Bool := decide (w &&& r.mask = r.pattern)

/-- The mnemonic of a command, as the table spells it. -/
def Instr.mnemonic : Instr → String
  | .nop => "NOP"
  | .reset => "RESET"
  | .digest => "DIGEST"
  | .upd1 _ => "UPD1"
  | .upd2 _ => "UPD2"
  | .upd3 _ => "UPD3"
  | .upd4 _ => "UPD4"
  | .upd5 _ => "UPD5"
  | .upd6 _ => "UPD6"
  | .upd7 _ => "UPD7"
  | .upd8 _ => "UPD8"
  | .smpl _ => "SMPL"

/-- The command word whose low `nbits` bits are those of `w`, every other bit 0. The table numbers the bits
of the one 72-bit word as R70 does, and the block takes the word whole on its `cmd` port, so there is
no byte order to lay it out in (log 12). -/
def tableWord (nbits w : Nat) : CmdWord := BitVec.ofNat 72 (w % 2 ^ min nbits 72)

/-- What the decoder reads from a table word, on a block with the default P_HARVESTER = PRESENT (R7). -/
def decodeTableWord (nbits w : Nat) : Option Instr :=
  match decode .present (tableWord nbits w) with
  | .command i => some i
  | .reserved _ => none

end Sys2Proof
end

