-- ==== Sys2Proof/Machine/Operands.lean ====
section
/-! DEFINITION. Operand assembly (30_encoding.md R73, R74). -/

namespace Sys2Proof.Machine

/-- The bytes an UPDn supplies: `b_k = DATA[8(n−k)−1 : 8(n−k−1)]` for `0 ≤ k < n`, so the first byte is the
most significant one of the low `8n` bits (R73). -/
def updBytes {w : Nat} (n : Nat) (imm : BitVec w) : List Byte :=
  (List.range n).map fun k => imm.extractLsb' (8 * (n - k - 1)) 8

/-- `sint64(DATA)`: the duration of a SMPL, in [−2^63, 2^63) (R74, 00_scope.md R11). -/
def sint64 (data : Word64) : Int := data.toInt

end Sys2Proof.Machine
end

