-- ==== Sys2Proof/Machine/Compress.lean ====
section
/-! DEFINITION. The SHA-256 compression datapath as pure functions (40_compression.md). Every constant and
formula is the rule's; the spec marks them as general knowledge of FIPS PUB 180-4 (log 8). -/

namespace Sys2Proof.Machine

/-! ## Word functions (R100 to R106) -/

/-- `ROTR(x, n) = (x >> n) ∨ (x << (32 − n))`, `0 < n < 32` (R100). -/
def rotr (x : Word) (n : Nat) : Word := (x >>> n) ||| (x <<< (32 - n))

/-- `SHR(x, n) = x >> n`, zeros enter at the top (R100). -/
def shr (x : Word) (n : Nat) : Word := x >>> n

/-- R101. -/
def ch (x y z : Word) : Word := (x &&& y) ^^^ (~~~x &&& z)

/-- R102. -/
def maj (x y z : Word) : Word := (x &&& y) ^^^ (x &&& z) ^^^ (y &&& z)

/-- `Σ0` (R103). -/
def bigSigma0 (x : Word) : Word := rotr x 2 ^^^ rotr x 13 ^^^ rotr x 22

/-- `Σ1` (R104). -/
def bigSigma1 (x : Word) : Word := rotr x 6 ^^^ rotr x 11 ^^^ rotr x 25

/-- `σ0` (R105). -/
def smallSigma0 (x : Word) : Word := rotr x 7 ^^^ rotr x 18 ^^^ shr x 3

/-- `σ1` (R106). -/
def smallSigma1 (x : Word) : Word := rotr x 17 ^^^ rotr x 19 ^^^ shr x 10

/-! ## Constants (R107, R108) -/

/-- The initial hash value IV (R107). -/
def iv : HashWords :=
  { a := 0x6a09e667#32, b := 0xbb67ae85#32, c := 0x3c6ef372#32, d := 0xa54ff53a#32,
    e := 0x510e527f#32, f := 0x9b05688c#32, g := 0x1f83d9ab#32, h := 0x5be0cd19#32 }

/-- Rows 0 to 24 of the table of R108: K[0] to K[31]. -/
def kTableLow : List Word :=
  [ 0x428a2f98#32, 0x71374491#32, 0xb5c0fbcf#32, 0xe9b5dba5#32, 0x3956c25b#32, 0x59f111f1#32, 0x923f82a4#32, 0xab1c5ed5#32,
    0xd807aa98#32, 0x12835b01#32, 0x243185be#32, 0x550c7dc3#32, 0x72be5d74#32, 0x80deb1fe#32, 0x9bdc06a7#32, 0xc19bf174#32,
    0xe49b69c1#32, 0xefbe4786#32, 0x0fc19dc6#32, 0x240ca1cc#32, 0x2de92c6f#32, 0x4a7484aa#32, 0x5cb0a9dc#32, 0x76f988da#32,
    0x983e5152#32, 0xa831c66d#32, 0xb00327c8#32, 0xbf597fc7#32, 0xc6e00bf3#32, 0xd5a79147#32, 0x06ca6351#32, 0x14292967#32 ]

/-- Rows 32 to 56 of the table of R108: K[32] to K[63]. -/
def kTableHigh : List Word :=
  [ 0x27b70a85#32, 0x2e1b2138#32, 0x4d2c6dfc#32, 0x53380d13#32, 0x650a7354#32, 0x766a0abb#32, 0x81c2c92e#32, 0x92722c85#32,
    0xa2bfe8a1#32, 0xa81a664b#32, 0xc24b8b70#32, 0xc76c51a3#32, 0xd192e819#32, 0xd6990624#32, 0xf40e3585#32, 0x106aa070#32,
    0x19a4c116#32, 0x1e376c08#32, 0x2748774c#32, 0x34b0bcb5#32, 0x391c0cb3#32, 0x4ed8aa4a#32, 0x5b9cca4f#32, 0x682e6ff3#32,
    0x748f82ee#32, 0x78a5636f#32, 0x84c87814#32, 0x8cc70208#32, 0x90befffa#32, 0xa4506ceb#32, 0xbef9a3f7#32, 0xc67178f2#32 ]

/-- The round constants K[0..63] (R108). -/
def kTable : List Word := kTableLow ++ kTableHigh

/-- `K[t]` for `t < 64`. -/
def roundConst (t : Nat) : Word := kTable.getD t 0

/-! ## Message schedule (R109) -/

/-- `be32(b0, b1, b2, b3) = b0 ‖ b1 ‖ b2 ‖ b3`, first byte most significant (20_memory.md R51). -/
def be32 (b0 b1 b2 b3 : Byte) : Word := b0 ++ b1 ++ b2 ++ b3

/-- `M[t] = be32(B[4t], B[4t+1], B[4t+2], B[4t+3])` for `t < 16` (R51). -/
def loadWord (blk : Block) (t : Fin 16) : Word :=
  be32 blk[4 * t.val] blk[4 * t.val + 1] blk[4 * t.val + 2] blk[4 * t.val + 3]

/-- `W[0..15]`. -/
def firstWords (blk : Block) : List Word := (List.finRange 16).map (loadWord blk)

/-- `W[t] = σ1(W[t-2]) + W[t-7] + σ0(W[t-15]) + W[t-16]`, from the words `W[0..t-1]` (R109). -/
def nextScheduleWord (ws : List Word) : Word :=
  let t := ws.length
  smallSigma1 (ws.getD (t - 2) 0) + ws.getD (t - 7) 0 + smallSigma0 (ws.getD (t - 15) 0)
    + ws.getD (t - 16) 0

/-- Append `n` further schedule words. -/
def extendSchedule : Nat → List Word → List Word
  | 0, ws => ws
  | n + 1, ws => extendSchedule n (ws ++ [nextScheduleWord ws])

/-- `W[0..63]` (R109). -/
def schedule (blk : Block) : List Word := extendSchedule 48 (firstWords blk)

/-! ## Round and compression (R110, R111) -/

/-- `ROUND(t, v, w)` (R110); every right-hand side reads the values before the round. -/
def sha256Round (t : Nat) (v : HashWords) (w : Word) : HashWords :=
  let t1 := v.h + bigSigma1 v.e + ch v.e v.f v.g + roundConst t + w
  let t2 := bigSigma0 v.a + maj v.a v.b v.c
  { a := t1 + t2, b := v.a, c := v.b, d := v.c, e := v.d + t1, f := v.e, g := v.f, h := v.g }

/-- The working variables after rounds 0 to `n − 1` with the schedule `ws`. -/
def roundsUpTo (ws : List Word) : Nat → HashWords → HashWords
  | 0, v => v
  | n + 1, v => sha256Round n (roundsUpTo ws n v) (ws.getD n 0)

/-- The eight additions modulo 2^32 that end a compression (R111). -/
def addWords (x y : HashWords) : HashWords :=
  { a := x.a + y.a, b := x.b + y.b, c := x.c + y.c, d := x.d + y.d,
    e := x.e + y.e, f := x.f + y.f, g := x.g + y.g, h := x.h + y.h }

/-- `COMPRESS(Hv, B)` (R111). -/
def compress (hv : HashWords) (blk : Block) : HashWords :=
  addWords hv (roundsUpTo (schedule blk) 64 hv)

/-- `D = H[0] ‖ H[1] ‖ … ‖ H[7]` (10_state.md R32, 20_memory.md R53). -/
def digestValue (v : HashWords) : DigestWord :=
  v.a ++ v.b ++ v.c ++ v.d ++ v.e ++ v.f ++ v.g ++ v.h

end Sys2Proof.Machine
end

