-- ==== Sys2Proof/Machine/State.lean ====
section
/-! DEFINITION. The architectural state (10_state.md R20), its reset value (R38), and why a step can stop. -/

namespace Sys2Proof.Machine

/-- Who made a result record (R32). -/
inductive Source where
  /-- HOST: a digest made by DIGEST. -/
  | host
  /-- HARV: a whitened block made by SMPL. -/
  | harv
deriving DecidableEq, Repr

/-- A result record `(SRC, D)` (R32). -/
structure Record where
  src  : Source
  data : DigestWord
deriving DecidableEq, Repr

/-- What the host presents to the block: a command word on the command channel, or the `rst` signal
(60_exceptions.md R222, 70_reset_and_hazards.md R230, R234). -/
inductive HostInput where
  | command (w : CmdWord)
  | systemReset
deriving DecidableEq, Repr

/-- The two errors of the block (60_exceptions.md R210). They are recorded in ERR and CAUSE and stop
nothing (R212). -/
inductive ErrorCause where
  /-- ErrReserved: a reserved OP. -/
  | reserved
  /-- ErrSampleOverflow: a SMPL with NS = 2^64 − 1. -/
  | sampleOverflow
deriving DecidableEq, Repr

/-- Reasons to stop with a fault: there is none. Both errors of the block are recorded in ERR and CAUSE
and "the engine goes on taking commands" (60_exceptions.md R212), so no step raises a fault. Safe. -/
inductive Fault where
deriving DecidableEq, Repr

/-- Reasons to answer with no meaning. No command and no step of the command-level machine raises any of
them; the last two belong to the port-level engine of Machine/Ports.lean. -/
inductive Refusal where
  /-- Raised by an arm of `exec` that has no meaning yet; no arm raises it. Safe. -/
  | notModelled (mnemonic : String)
  /-- Raised by the port-level engine for a block that was never reset: "A block that was never reset has
  no model" (93_implementation_defined.md, 70_reset_and_hazards.md R232). Safe. -/
  | neverReset
  /-- Raised by the port-level engine for a host that drops or changes a word it must hold: "Such a host
  has no move in the model" (93_implementation_defined.md, 70_reset_and_hazards.md R234). Safe. -/
  | handshakeBroken
deriving DecidableEq, Repr

/-- The state of the block (R20), its parameters (00_scope.md R7), and two fields of the model's own
(`inbox`, `free`). BUSY and the datapath's working registers are no part of it (R20, R31, R36). The
small fields stand first: where Lean compares two states field by field, it meets a difference there
before it would unfold a compression. -/
structure State where
  /-- The parameters of this block (R7); no step changes them (log 5). -/
  params : Params
  /-- The model's own: the number of free values drawn so far (log 4). -/
  free   : Nat
  /-- FILL, the number of message bytes in BUF, 0 to 63 (R23; log 13). -/
  fill   : Fin 64
  /-- ERR, sticky (R29). -/
  err    : Bool
  /-- CAUSE, the cause of the first error (R30). -/
  cause  : BitVec 2
  /-- BITCNT, message bits already compressed (R24). -/
  bitcnt : Word64
  /-- NS, the sample count (R34). -/
  ns     : Word64
  /-- SUM, the exact sum of the durations (R35). -/
  sum    : Int
  /-- The model's own: what the host presents from here on, first one first (log 1). -/
  inbox  : List HostInput
  /-- WIN, the bit window, oldest bit first (R33); WCNT is its length. -/
  win    : List Bool
  /-- OUT, the records delivered since system reset, oldest first (R32). -/
  out    : List Record
  /-- H[0..7], the running digest (R21). -/
  h      : HashWords
  /-- BUF[0..63], the block buffer (R22). -/
  buf    : Block
deriving DecidableEq, Repr

/-- WCNT (R33). -/
def State.wcnt (s : State) : Nat := s.win.length

/-- The state right after a system reset (R38, 70_reset_and_hazards.md R230) of a block with the parameters
`p` ("a parameter marked OPEN is an argument of the model", R7). BUF has no reset value in the spec.
DESIGN CHOICE (log 3): all bytes zero. -/
def State.resetWith (p : Params) : State :=
  { params := p
    free := 0
    fill := 0
    err := false
    cause := 0#2
    bitcnt := 0#64
    ns := 0#64
    sum := 0
    inbox := []
    win := []
    out := []
    h := iv
    buf := Vector.replicate 64 0x00#8 }

/-- The reset state of a block with the default parameters (log 5, log 11). -/
def State.reset : State := State.resetWith Params.default

end Sys2Proof.Machine
end

