-- ==== Sys2Proof/Machine/Flags.lean ====
section
/-! DEFINITION. The status bits and the one comparison of the block: STATUS (10_state.md R28), the CAUSE
codes (R30) and MEANBIT (42_harvester.md R182). There are no condition codes (41_hash_commands.md). -/

namespace Sys2Proof.Machine

/-- CAUSE codes (R30, 60_exceptions.md R210). -/
def causeCode : ErrorCause → BitVec 2
  | .reserved => 0b01#2
  | .sampleOverflow => 0b10#2

/-- The 4-bit STATUS word: bit 0 BUSY, bit 1 ERR, bits 3:2 CAUSE (R28). -/
def statusWord (busy err : Bool) (cause : BitVec 2) : BitVec 4 :=
  cause ++ BitVec.ofBool err ++ BitVec.ofBool busy

/-- STATUS between commands; BUSY "reads 0 in every state between commands" (R31). -/
def State.status (s : State) : BitVec 4 := statusWord false s.err s.cause

/-- The encoding of SRC on the `res_src` port (R32): HOST is 0, HARV is 1. -/
def sourceBit : Source → BitVec 1
  | .host => 0#1
  | .harv => 1#1

/-- `MEANBIT(d, n, s)` (R182): with EXACT, 0 when `d * n < s` in exact integers, else 1; with HOST_FLOAT,
the configuration function (log 6). -/
def meanBit (cmp : MeanCmp) (d : Int) (n : Nat) (s : Int) : Bool :=
  match cmp with
  | .exact => !decide (d * (n : Int) < s)
  | .hostFloat => Config.hostFloatMeanBit d n s

end Sys2Proof.Machine
end

