-- ==== Sys2Proof/Machine/Message.lean ====
section
/-! DEFINITION. The message-level function SHA256 (41_hash_commands.md R155) on a list of bytes. -/

namespace Sys2Proof.Machine

/-- `be64bytes(v)`: eight bytes, most significant first (00_scope.md R11, 20_memory.md R52). -/
def be64bytes (v : Word64) : List Byte := (List.range 8).map fun j => v.extractLsb' (56 - 8 * j) 8

/-- The number of zero bytes in the padding of a message of `m` bytes: the least `z` such that
`m + 1 + z + 8` is a multiple of 64 (R155). -/
def padZeros (m : Nat) : Nat := (64 - (m + 9) % 64) % 64

/-- `PAD(M) = M ‖ [0x80] ‖ [0x00] × z ‖ be64bytes(8m mod 2^64)` (R155). -/
def padMessage (msg : List Byte) : List Byte :=
  msg ++ [0x80#8] ++ List.replicate (padZeros msg.length) 0x00#8
    ++ be64bytes (BitVec.ofNat 64 (8 * msg.length))

/-- The `i`-th 64-byte block of a byte string. -/
def blockAt (bytes : List Byte) (i : Nat) : Block :=
  Vector.ofFn fun j => bytes.getD (64 * i + j.val) 0

/-- The full 64-byte blocks `B_1 … B_N` of a byte string. -/
def blocksOf (bytes : List Byte) : List Block :=
  (List.range (bytes.length / 64)).map (blockAt bytes)

/-- `fold COMPRESS over B_1 … B_N starting from IV` (R155). -/
def chain (blks : List Block) : HashWords := blks.foldl compress iv

/-- `SHA256(M)` (R155). -/
def sha256 (msg : List Byte) : DigestWord := digestValue (chain (blocksOf (padMessage msg)))

end Sys2Proof.Machine
end

