-- ==== Sys2Proof/Machine/Ops.lean ====
section
/-! DEFINITION. The named operations over the state: recording an error, emitting a record, the hash context
(reset, absorb, finish), the bit window, and system reset. -/

namespace Sys2Proof.Machine

/-! ## Errors (60_exceptions.md R211) -/

/-- `raise E` (R211): the first error sets ERR and CAUSE, a later one changes nothing. This is the block's
whole exception entry: no state is saved, no mode changes and control goes nowhere (R215), and there
is no return from it (R216). -/
def raiseError (e : ErrorCause) (s : State) : State :=
  if s.err then s else { s with err := true, cause := causeCode e }

/-! ## Result channel (10_state.md R32) -/

/-- `emit(src, v)`: append one record to OUT. -/
def emit (src : Source) (v : DigestWord) (s : State) : State :=
  { s with out := s.out ++ [{ src := src, data := v }] }

/-! ## The hash context -/

/-- The n-th unspecified content of BUF: 64 free bytes (log 4). -/
def freeBlock (n : Nat) : Block := Vector.ofFn fun j => Config.freeByte n j.val

/-- BUF becomes unspecified (10_state.md R22, R38): all 64 bytes are free values (log 4). -/
def forgetBuffer (s : State) : State :=
  { s with buf := freeBlock s.free, free := s.free + 1 }

/-- Return the hash context to `CTX0` (R25; the body of RESET, R141, and the auto-reset of DIGEST, R152). -/
def resetContext (s : State) : State :=
  forgetBuffer { s with h := iv, fill := 0, bitcnt := 0#64 }

/-- `ABSORB(v)` (R142). FILL = 64 exists inside this operation only (R23). -/
def absorb (v : Byte) (s : State) : State :=
  let buf := s.buf.set s.fill.val v
  if hlt : s.fill.val + 1 < 64 then
    { s with buf := buf, fill := ⟨s.fill.val + 1, hlt⟩ }
  else
    forgetBuffer { s with h := compress s.h buf, bitcnt := s.bitcnt + 512#64, fill := 0 }

/-- `for k in 0..n-1: ABSORB(b_k)` (R142). -/
def absorbAll (bytes : List Byte) (s : State) : State :=
  bytes.foldl (fun t v => absorb v t) s

/-- `BUF[lo..hi-1] <- 0x00`. -/
def zeroRange (lo hi : Nat) (blk : Block) : Block :=
  Vector.ofFn fun j => if lo ≤ j.val ∧ j.val < hi then 0x00#8 else blk[j]

/-- `for j in 0..7: BUF[56+j] <- L[63−8j : 56−8j]` (R151, 20_memory.md R52): byte `i ≥ 56` of the block has
its low bit at bit `8 (63 − i)` of `L`. -/
def putLength (len : Word64) (blk : Block) : Block :=
  Vector.ofFn fun j => if 56 ≤ j.val then len.extractLsb' (8 * (63 - j.val)) 8 else blk[j]

/-- The message length in bits, `(BITCNT + 8 * FILL) mod 2^64` (R24, R151). -/
def messageBits (s : State) : Word64 := s.bitcnt + BitVec.ofNat 64 (8 * s.fill.val)

/-- `FINAL()` up to its last statement (R151): H after the final compression. The padding's writes to BUF are
not kept in the state, since DIGEST leaves BUF unspecified right after (R22, R25). -/
def finalHash (s : State) : HashWords :=
  let f := s.fill.val
  let marked := s.buf.set f 0x80#8
  if f < 56 then
    compress s.h (putLength (messageBits s) (zeroRange (f + 1) 56 marked))
  else
    let extra := zeroRange (f + 1) 64 marked
    compress (compress s.h extra) (putLength (messageBits s) (zeroRange 0 56 extra))

/-! ## The harvester's window (42_harvester.md) -/

/-- WIN's capacity (00_scope.md R7). -/
def winCapacity : Nat := 512

/-- Window update (R183): a full window first loses its oldest bit `WIN[0]`; the new bit is the newest. -/
def pushBit (win : List Bool) (bit : Bool) : List Bool :=
  (if win.length = winCapacity then win.drop 1 else win) ++ [bit]

/-- One byte of eight window bits, the first one most significant: `Σ_k WIN[8j+k] · 2^(7−k)` (R184). -/
def packByte (win : List Bool) (j : Nat) : Byte :=
  BitVec.ofNat 8
    ((List.range 8).foldl (fun acc k => acc + (win.getD (8 * j + k) false).toNat * 2 ^ (7 - k)) 0)

/-- `PACK(WIN)` (R184). -/
def pack (win : List Bool) : Block := Vector.ofFn fun j => packByte win j.val

/-- Take one duration sample (the pseudocode of R181). -/
def takeSample (d : Int) (s : State) : State :=
  if s.ns = BitVec.allOnes 64 then raiseError .sampleOverflow s
  else
    let ns := s.ns + 1#64
    let sum := s.sum + d
    let win := pushBit s.win (meanBit s.params.meanCmp d ns.toNat sum)
    let t := { s with ns := ns, sum := sum, win := win }
    if win.length = winCapacity then emit .harv (sha256 (pack win).toList) t else t

/-! ## System reset (70_reset_and_hazards.md R230) -/

/-- Every piece of state takes the value of R38; BUF is unspecified (a free value, log 4). The parameters
and what the host will present next are no state of the block and stay. -/
def systemReset (s : State) : State :=
  forgetBuffer { State.resetWith s.params with inbox := s.inbox, free := s.free }

end Sys2Proof.Machine
end

