-- ==== Sys2Proof/Machine/Absorb.lean ====
section
/-! DEFINITION. UPD1 to UPD8 (41_hash_commands.md R143 to R150): absorb n bytes of the operand, the most
significant first, through the shared `absorbAll` (R142) and `updBytes` (30_encoding.md R73). -/

namespace Sys2Proof.Machine

/-- UPD1 (R143): absorb one byte. -/
def execUpd1 (imm : BitVec 8) (s : State) : Host.Outcome State Fault Refusal :=
  .next (absorbAll (updBytes 1 imm) s)

/-- UPD2 (R144): absorb two bytes. -/
def execUpd2 (imm : BitVec 16) (s : State) : Host.Outcome State Fault Refusal :=
  .next (absorbAll (updBytes 2 imm) s)

/-- UPD3 (R145): absorb three bytes. -/
def execUpd3 (imm : BitVec 24) (s : State) : Host.Outcome State Fault Refusal :=
  .next (absorbAll (updBytes 3 imm) s)

/-- UPD4 (R146): absorb four bytes. -/
def execUpd4 (imm : BitVec 32) (s : State) : Host.Outcome State Fault Refusal :=
  .next (absorbAll (updBytes 4 imm) s)

/-- UPD5 (R147): absorb five bytes. -/
def execUpd5 (imm : BitVec 40) (s : State) : Host.Outcome State Fault Refusal :=
  .next (absorbAll (updBytes 5 imm) s)

/-- UPD6 (R148): absorb six bytes. -/
def execUpd6 (imm : BitVec 48) (s : State) : Host.Outcome State Fault Refusal :=
  .next (absorbAll (updBytes 6 imm) s)

/-- UPD7 (R149): absorb seven bytes. -/
def execUpd7 (imm : BitVec 56) (s : State) : Host.Outcome State Fault Refusal :=
  .next (absorbAll (updBytes 7 imm) s)

/-- UPD8 (R150): absorb eight bytes. -/
def execUpd8 (imm : BitVec 64) (s : State) : Host.Outcome State Fault Refusal :=
  .next (absorbAll (updBytes 8 imm) s)

end Sys2Proof.Machine
end

