-- ==== Sys2Proof/Machine/Control.lean ====
section
/-! DEFINITION. The commands that take no operand: NOP, RESET, DIGEST (41_hash_commands.md R140, R141, R152). -/

namespace Sys2Proof.Machine

/-- NOP (R140): no state changes, no record. -/
def execNop (s : State) : Host.Outcome State Fault Refusal := .next s

/-- RESET (R141): the hash context returns to `CTX0`; a partial message is discarded; ERR, CAUSE, WIN, NS,
SUM and OUT are unchanged. -/
def execReset (s : State) : Host.Outcome State Fault Refusal := .next (resetContext s)

/-- DIGEST (R152): finish the message, emit `(HOST, D)`, return the context to `CTX0`. -/
def execDigest (s : State) : Host.Outcome State Fault Refusal :=
  .next (resetContext (emit .host (digestValue (finalHash s)) s))

end Sys2Proof.Machine
end

