-- ==== Sys2Proof/Machine/Harvest.lean ====
section
/-! DEFINITION. SMPL, the harvester's command (42_harvester.md R181). -/

namespace Sys2Proof.Machine

/-- SMPL (R181): take the sample `d = sint64(DATA)`. On a block without the harvester OP 0x20 is reserved
and raises ErrReserved (30_encoding.md R76; log 7). -/
def execSmpl (data : Word64) (s : State) : Host.Outcome State Fault Refusal :=
  match s.params.harvester with
  | .present => .next (takeSample (sint64 data) s)
  | .absent => .next (raiseError .reserved s)

end Sys2Proof.Machine
end

