-- ==== Sys2Proof/Machine/Dispatch.lean ====
section
/-! DEFINITION. The one dispatch over the twelve commands: each arm is one call of its meaning. -/

namespace Sys2Proof.Machine

def exec (i : Instr) (s : State) : Host.Outcome State Fault Refusal :=
  match i with
  | .nop => Sys2Proof.Machine.execNop s
  | .reset => Sys2Proof.Machine.execReset s
  | .digest => Sys2Proof.Machine.execDigest s
  | .upd1 imm => Sys2Proof.Machine.execUpd1 imm s
  | .upd2 imm => Sys2Proof.Machine.execUpd2 imm s
  | .upd3 imm => Sys2Proof.Machine.execUpd3 imm s
  | .upd4 imm => Sys2Proof.Machine.execUpd4 imm s
  | .upd5 imm => Sys2Proof.Machine.execUpd5 imm s
  | .upd6 imm => Sys2Proof.Machine.execUpd6 imm s
  | .upd7 imm => Sys2Proof.Machine.execUpd7 imm s
  | .upd8 imm => Sys2Proof.Machine.execUpd8 imm s
  | .smpl data => Sys2Proof.Machine.execSmpl data s

end Sys2Proof.Machine
end

