-- ==== Sys2Proof/Machine/Command.lean ====
section
/-! DEFINITION. Taking one input from the host: decode a command word and perform it, or take a system reset. -/

namespace Sys2Proof.Machine

/-- Perform one accepted command word (00_scope.md R6): a command has the meaning of `exec`; a reserved word
raises ErrReserved "and has no other effect" (30_encoding.md R76, 60_exceptions.md R210). -/
def performWord (w : CmdWord) (s : State) : Host.Outcome State Fault Refusal :=
  match decode s.params.harvester w with
  | .command i => exec i s
  | .reserved _ => .next (raiseError .reserved s)

/-- Take the host's next input. With none the block is idle and keeps its state (60_exceptions.md R221;
log 2). -/
def takeInput (s : State) : Host.Outcome State Fault Refusal :=
  match s.inbox with
  | [] => .next s
  | .systemReset :: rest => .next (systemReset { s with inbox := rest })
  | .command w :: rest => performWord w { s with inbox := rest }

/-- Put a command word in front of what the host presents. -/
def presentWord (w : CmdWord) (s : State) : State := { s with inbox := .command w :: s.inbox }

end Sys2Proof.Machine
end

