-- ==== Sys2Proof/Machine/Assembler.lean ====
section
/-! DEFINITION. The assembler (30_encoding.md R79, R80): lines as data with their command words, and the text
syntax of a line. -/

namespace Sys2Proof.Machine

/-- A line of assembler: a command, the raw form, or a pseudo-instruction. -/
inductive AsmLine where
  | nop
  | reset
  | digest
  | upd (n imm : Nat)
  | smpl (d : Int)
  | cw (op data : Nat)
  | update (bytes : List Byte)
  | hash (bytes : List Byte)
  | samples (d : Int) (count : Nat)
deriving DecidableEq, Repr

/-- The big-endian value of a byte string. -/
def bigEndian (bytes : List Byte) : Nat := bytes.foldl (fun acc b => 256 * acc + b.toNat) 0

/-- `UPD<n> <imm>`: `n in 1..8, 0 <= imm < 2^(8n); OP = 0x0F + n, DATA = imm` (R79). -/
def updWord (n imm : Nat) : CmdWord := rawWord (BitVec.ofNat 8 (0x0F + n)) (BitVec.ofNat 64 imm)

/-- The full groups of 8 bytes from the start. -/
def groupsOf8 (bytes : List Byte) : List (List Byte) :=
  (List.range (bytes.length / 8)).map fun i => (bytes.drop (8 * i)).take 8

/-- The expansion of UPDATE (R80): `UPD8 be64(group)` for each full group, then one `UPD<r>` with the last r
bytes if `r = m mod 8` is not 0. -/
def updateWords (bytes : List Byte) : List CmdWord :=
  (groupsOf8 bytes).map (fun g => updWord 8 (bigEndian g)) ++
    (if bytes.length % 8 = 0 then []
     else [updWord (bytes.length % 8) (bigEndian (bytes.drop (8 * (bytes.length / 8))))])

/-- `SMPL <simm>`: `OP = 0x20, DATA = simm mod 2^64` (R79). -/
def smplWord (d : Int) : CmdWord := rawWord 0x20#8 (BitVec.ofInt 64 d)

/-- `-2^63 <= simm < 2^63` (R79). -/
def smplRange (d : Int) : Bool := decide (-(2 ^ 63 : Int) ≤ d ∧ d < 2 ^ 63)

/-- The command words of a line; `none` when an immediate is out of range: "The assembler refuses an
immediate out of range; it never truncates" (R79). -/
def assembleLine : AsmLine → Option (List CmdWord)
  | .nop => some [rawWord 0x00#8 0]
  | .reset => some [rawWord 0x01#8 0]
  | .digest => some [rawWord 0x02#8 0]
  | .upd n imm => if 1 ≤ n ∧ n ≤ 8 ∧ imm < 2 ^ (8 * n) then some [updWord n imm] else none
  | .smpl d => if smplRange d then some [smplWord d] else none
  | .cw op data =>
    if op < 256 ∧ data < 2 ^ 64 then some [rawWord (BitVec.ofNat 8 op) (BitVec.ofNat 64 data)] else none
  | .update bytes => some (updateWords bytes)
  | .hash bytes => some ([rawWord 0x01#8 0] ++ updateWords bytes ++ [rawWord 0x02#8 0])
  | .samples d count => if smplRange d then some (List.replicate count (smplWord d)) else none

/-! ## The text of a line (R79)

DESIGN CHOICE (log 10): words are separated by blanks, commas and brackets; a `;` inside a quoted text is
text; a hexadecimal digit may be of either case; a quoted text has no escapes. -/

/-- A token of a line. -/
inductive AsmToken where
  | word (cs : List Char)
  | text (cs : List Char)
  | comma
  | lbrack
  | rbrack
deriving DecidableEq, Repr

/-- The quotation mark. -/
def quoteChar : Char := Char.ofNat 34

/-- Where the reader of a line stands; letters read so far, newest first. -/
inductive LexMode where
  | gap
  | word (acc : List Char)
  | text (acc : List Char)
deriving DecidableEq, Repr

/-- The tokens a separator stands for; `none` when the character is no separator. -/
def separator (c : Char) : Option (List AsmToken) :=
  if c = ' ' ∨ c = '\t' ∨ c = '\r' then some []
  else if c = ',' then some [.comma]
  else if c = '[' then some [.lbrack]
  else if c = ']' then some [.rbrack]
  else none

/-- The tokens of a line; a `;` outside a quoted text starts a comment; `none` for an unfinished text. -/
def tokens : LexMode → List Char → Option (List AsmToken)
  | .gap, [] => some []
  | .word acc, [] => some [.word acc.reverse]
  | .text _, [] => none
  | .text acc, c :: cs =>
    if c = quoteChar then (tokens .gap cs).map fun ts => .text acc.reverse :: ts
    else tokens (.text (c :: acc)) cs
  | .gap, c :: cs =>
    if c = ';' then some []
    else if c = quoteChar then tokens (.text []) cs
    else match separator c with
      | some sep => (tokens .gap cs).map fun ts => sep ++ ts
      | none => tokens (.word [c]) cs
  | .word acc, c :: cs =>
    if c = ';' then some [.word acc.reverse]
    else if c = quoteChar then (tokens (.text []) cs).map fun ts => .word acc.reverse :: ts
    else match separator c with
      | some sep => (tokens .gap cs).map fun ts => .word acc.reverse :: (sep ++ ts)
      | none => tokens (.word (c :: acc)) cs

/-- The value of a digit in a base up to 16. -/
def digitValue (base : Nat) (c : Char) : Option Nat :=
  let n := c.toNat
  let v :=
    if 48 ≤ n ∧ n ≤ 57 then n - 48
    else if 97 ≤ n ∧ n ≤ 102 then n - 87
    else if 65 ≤ n ∧ n ≤ 70 then n - 55
    else 16
  if v < base then some v else none

/-- The value of a string of digits after a value already read. -/
def digitsValue (base : Nat) : Nat → List Char → Option Nat
  | acc, [] => some acc
  | acc, c :: cs => (digitValue base c).bind fun v => digitsValue base (base * acc + v) cs

/-- A number: decimal, or hexadecimal with `0x` (R79). -/
def numberValue (cs : List Char) : Option Nat :=
  match cs with
  | '0' :: 'x' :: c :: rest => digitsValue 16 0 (c :: rest)
  | [] => none
  | c :: rest => digitsValue 10 0 (c :: rest)

/-- A number, or a negative decimal (R79, for SMPL). -/
def signedValue (cs : List Char) : Option Int :=
  match cs with
  | '-' :: c :: rest => (digitsValue 10 0 (c :: rest)).map fun n => -(n : Int)
  | _ => (numberValue cs).map fun n => (n : Int)

/-- A list of byte values up to its closing bracket; `first` says that no value has been read yet. -/
def byteList : Bool → List AsmToken → Option (List Byte)
  | true, [.rbrack] => some []
  | _, [.word w, .rbrack] =>
    (numberValue w).bind fun n => if n < 256 then some [BitVec.ofNat 8 n] else none
  | _, .word w :: .comma :: rest =>
    (numberValue w).bind fun n =>
      if n < 256 then (byteList false rest).map fun bs => BitVec.ofNat 8 n :: bs else none
  | _, _ => none

/-- The ASCII or UTF-8 bytes of a text (R80). -/
def textBytes (cs : List Char) : List Byte :=
  cs.flatMap fun c => (String.utf8EncodeChar c).map fun b => b.toBitVec

/-- A line from its lower-case mnemonic and the tokens after it. -/
def lineOf (mnemonic : List Char) (args : List AsmToken) : Option AsmLine :=
  match mnemonic, args with
  | ['n', 'o', 'p'], [] => some .nop
  | ['r', 'e', 's', 'e', 't'], [] => some .reset
  | ['d', 'i', 'g', 'e', 's', 't'], [] => some .digest
  | ['u', 'p', 'd', d], [.word imm] =>
    (digitValue 10 d).bind fun n =>
      (numberValue imm).bind fun v => if 1 ≤ n ∧ n ≤ 8 then some (.upd n v) else none
  | ['s', 'm', 'p', 'l'], [.word imm] => (signedValue imm).map .smpl
  | ['.', 'c', 'w'], [.word op, .comma, .word data] =>
    (numberValue op).bind fun o => (numberValue data).map fun v => .cw o v
  | ['u', 'p', 'd', 'a', 't', 'e'], [.text cs] => some (.update (textBytes cs))
  | ['u', 'p', 'd', 'a', 't', 'e'], .lbrack :: rest => (byteList true rest).map .update
  | ['h', 'a', 's', 'h'], [.text cs] => some (.hash (textBytes cs))
  | ['s', 'a', 'm', 'p', 'l', 'e', 's'], [.word imm, .comma, .word count] =>
    (signedValue imm).bind fun d => (numberValue count).map fun n => .samples d n
  | _, _ => none

/-- Read one line of text: `some none` for a line with no command, `none` for a line that is refused.
Mnemonics are case-insensitive (R79). -/
def parseLine (cs : List Char) : Option (Option AsmLine) :=
  (tokens .gap cs).bind fun ts =>
    match ts with
    | [] => some none
    | .word m :: args => (lineOf (m.map Char.toLower) args).map some
    | _ => none

/-- The command words of one line of text. -/
def assembleText (cs : List Char) : Option (List CmdWord) :=
  (parseLine cs).bind fun l =>
    match l with
    | none => some []
    | some line => assembleLine line

/-- The lines of a text ("One command per line", R79); `acc` is the line being read, newest letter first. -/
def linesOf : List Char → List Char → List (List Char)
  | acc, [] => [acc.reverse]
  | acc, c :: cs => if c = '\n' then acc.reverse :: linesOf [] cs else linesOf (c :: acc) cs

/-- The command words of the lines, in order; `none` if one line is refused. -/
def assembleLines : List (List Char) → Option (List CmdWord)
  | [] => some []
  | l :: ls => (assembleText l).bind fun ws => (assembleLines ls).map fun rest => ws ++ rest

/-- The command words of a whole text. -/
def assemble (cs : List Char) : Option (List CmdWord) := assembleLines (linesOf [] cs)

end Sys2Proof.Machine
end

