-- ==== Sys2Proof/Machine/Datapath.lean ====
section
/-! DEFINITION. The datapath structures of 40_compression.md section 5: the rolling schedule (R112), the unrolled
(R113), iterative (R114) and pipelined (R115) datapaths. The commands use `compress` (R116: "A model may
define `COMPRESS` by rule R111 alone"); that these structures compute the same function is a claim. -/

namespace Sys2Proof.Machine

/-! ## Rolling schedule (R112) -/

/-- `new = σ1(w[14]) + w[9] + σ0(w[1]) + w[0]` from a window `w[0..15]`. -/
def rollingWord (win : List Word) : Word :=
  smallSigma1 (win.getD 14 0) + win.getD 9 0 + smallSigma0 (win.getD 1 0) + win.getD 0 0

/-- `w[i] <- w[i+1]` for i in 0..14, and `w[15] <- new`. -/
def rollWindow (win : List Word) : List Word := win.drop 1 ++ [rollingWord win]

/-- The window after `n` shifts, loaded with `W[0..15]`: the window before round `16 + n`. -/
def rolledWindow (blk : Block) : Nat → List Word
  | 0 => firstWords blk
  | n + 1 => rollWindow (rolledWindow blk n)

/-! ## Unrolled datapath (R113) -/

/-- Copy `t` of the round logic, wired to `K[t]`, applied to its schedule word. -/
def unrolledStage (v : HashWords) (p : Nat × Word) : HashWords := sha256Round p.1 v p.2

/-- Sixty-four copies in sequence, copy `t` wired to `W[t]`, then the eight final additions. -/
def unrolled (hv : HashWords) (blk : Block) : HashWords :=
  addWords hv (((List.range 64).zip (schedule blk)).foldl unrolledStage hv)

/-! ## Iterative datapath (R114) -/

/-- The registers of an iterative datapath (R36): the round counter, the working variables, and the schedule.
R36 and R112 let a datapath keep all 64 schedule words or a 16-word window ("Either form of the schedule
is conforming"). DESIGN CHOICE (log 21): the rolling 16-word window. -/
structure IterState where
  t    : Nat
  vars : HashWords
  win  : List Word
deriving DecidableEq, Repr

/-- Load a compression: counter 0, working variables `Hv`, window `W[0..15]`. -/
def iterLoad (hv : HashWords) (blk : Block) : IterState :=
  { t := 0, vars := hv, win := firstWords blk }

/-- One round stage: rounds 0 to 15 use the loaded window word `w[t]`, a later round the new word of R112. -/
def iterStage (st : IterState) : IterState :=
  if st.t < 16 then
    { st with t := st.t + 1, vars := sha256Round st.t st.vars (st.win.getD st.t 0) }
  else
    { t := st.t + 1, vars := sha256Round st.t st.vars (rollingWord st.win), win := rollWindow st.win }

/-- One cycle: `k` round stages one after the other; the counter advances by `k`. -/
def iterCycle : Nat → IterState → IterState
  | 0, st => st
  | k + 1, st => iterCycle k (iterStage st)

/-- `n` cycles of `k` stages. -/
def iterCycles (k : Nat) : Nat → IterState → IterState
  | 0, st => st
  | n + 1, st => iterCycle k (iterCycles k n st)

/-- A whole compression: `64 / k` cycles, then the chaining value is added. -/
def iterative (k : Nat) (hv : HashWords) (blk : Block) : HashWords :=
  addWords hv (iterCycles k (64 / k) (iterLoad hv blk)).vars

/-! ## Pipelined datapath (R115) -/

/-- What one stage register holds: the working variables, the chaining value, and the schedule words still
needed. -/
structure Flight where
  vars  : HashWords
  chain : HashWords
  words : List Word
deriving DecidableEq, Repr

/-- What enters stage 0 for an input `(Hv, B)`. -/
def flightOf (hv : HashWords) (blk : Block) : Flight :=
  { vars := hv, chain := hv, words := schedule blk }

/-- Stage `t` applies round `t` to the vector it receives. -/
def pipeStage (t : Nat) (f : Flight) : Flight :=
  { vars := sha256Round t f.vars (f.words.headD 0), chain := f.chain, words := f.words.drop 1 }

/-- One clock of the sixty-four stage registers: stage 0 takes the input, stage `t + 1` takes what stage `t`
held. -/
def pipeClock (input : Option Flight) (regs : Vector (Option Flight) 64) : Vector (Option Flight) 64 :=
  Vector.ofFn fun t =>
    (if h : t.val = 0 then input else regs[t.val - 1]).map (pipeStage t.val)

/-- The output of the last stage, which adds the chaining value. -/
def pipeOutput (regs : Vector (Option Flight) 64) : Option HashWords :=
  regs[63].map fun f => addWords f.chain f.vars

/-- A pipeline clocked through a list of inputs, the first one first. -/
def pipeRun (inputs : List (Option Flight)) (regs : Vector (Option Flight) 64) :
    Vector (Option Flight) 64 :=
  inputs.foldl (fun r i => pipeClock i r) regs

/-- The empty pipeline, as it stands between commands (70_reset_and_hazards.md R235). -/
def pipeEmpty : Vector (Option Flight) 64 := Vector.replicate 64 none

/-- One compression through an empty pipeline, with nothing behind it. -/
def pipelined (hv : HashWords) (blk : Block) : Option HashWords :=
  pipeOutput (pipeRun (some (flightOf hv blk) :: List.replicate 63 none) pipeEmpty)

/-- The compression as the block's own P_DATAPATH computes it. -/
def datapathCompress (dp : Datapath) (hv : HashWords) (blk : Block) : Option HashWords :=
  match dp with
  | .unrolled => some (unrolled hv blk)
  | .iterative k => some (iterative k hv blk)
  | .pipelined => pipelined hv blk

end Sys2Proof.Machine
end

