-- ==== Sys2Proof/Machine/Rendering.lean ====
section
/-! DEFINITION. The two host renderings of a digest (41_hash_commands.md R153, R154), and a digest as a byte
sequence (20_memory.md R53). -/

namespace Sys2Proof.Machine

/-- The lowercase hexadecimal digit of a nibble. -/
def hexDigit (n : BitVec 4) : Char :=
  if n.toNat < 10 then Char.ofNat (48 + n.toNat) else Char.ofNat (87 + n.toNat)

/-- `HEX(D)` (R153): character `i` is the digit of `D[255−4i : 252−4i]`. -/
def hexString (d : DigestWord) : List Char :=
  (List.range 64).map fun i => hexDigit (d.extractLsb' (252 - 4 * i) 4)

/-- The character of one bit. -/
def bitChar (b : Bool) : Char := if b then '1' else '0'

/-- `BIN(D)` (R154): character `i` is `'1'` when `D[255−i] = 1`. -/
def binString (d : DigestWord) : List Char :=
  (List.range 256).map fun i => bitChar (d.getLsbD (255 - i))

/-- The value of a lowercase hexadecimal digit. -/
def hexValue (c : Char) : BitVec 4 :=
  if c.toNat < 58 then BitVec.ofNat 4 (c.toNat - 48) else BitVec.ofNat 4 (c.toNat - 87)

/-- Four binary digits of a nibble, most significant bit first (R154). -/
def nibbleString (n : BitVec 4) : List Char :=
  (List.range 4).map fun k => bitChar (n.getLsbD (3 - k))

/-- The digest as 32 bytes: byte `4i + j` is `H[i][31−8j : 24−8j]`, so byte `m` has its low bit at bit
`248 − 8m` of D (R53). -/
def digestBytes (d : DigestWord) : List Byte :=
  (List.range 32).map fun m => d.extractLsb' (248 - 8 * m) 8

end Sys2Proof.Machine
end

