-- ==== Sys2Proof/Machine/HostDriver.lean ====
section
/-! DEFINITION. What the host does with the block, as far as the spec fixes it: a sequence of commands, and the
host routine `run()` (42_harvester.md R188). It is no part of the block's state. -/

namespace Sys2Proof.Machine

/-- Perform a list of things one after the other, stopping where one stops (20_memory.md R60). -/
def runAll {α : Type} (perform : α → State → Host.Outcome State Fault Refusal) :
    List α → State → Host.Outcome State Fault Refusal
  | [], s => .next s
  | x :: rest, s =>
    match perform x s with
    | .next t => runAll perform rest t
    | .fault r => .fault r
    | .refused r => .refused r

/-- A sequence of commands. -/
def runInstrs : List Instr → State → Host.Outcome State Fault Refusal := runAll exec

/-- A sequence of command words. -/
def runWords : List CmdWord → State → Host.Outcome State Fault Refusal := runAll performWord

/-- The message bytes a command supplies to the hash context (R73); none but UPDn supplies any. -/
def messageBytes : Instr → List Byte
  | .nop => []
  | .reset => []
  | .digest => []
  | .upd1 imm => updBytes 1 imm
  | .upd2 imm => updBytes 2 imm
  | .upd3 imm => updBytes 3 imm
  | .upd4 imm => updBytes 4 imm
  | .upd5 imm => updBytes 5 imm
  | .upd6 imm => updBytes 6 imm
  | .upd7 imm => updBytes 7 imm
  | .upd8 imm => updBytes 8 imm
  | .smpl _ => []

/-- The command neither ends nor discards a message: NOP, UPDn or SMPL. -/
def keepsMessage : Instr → Bool
  | .nop => true
  | .reset => false
  | .digest => false
  | .upd1 _ => true
  | .upd2 _ => true
  | .upd3 _ => true
  | .upd4 _ => true
  | .upd5 _ => true
  | .upd6 _ => true
  | .upd7 _ => true
  | .upd8 _ => true
  | .smpl _ => true

/-- P_ITER (00_scope.md R7, R188). -/
def pIter : Nat := 1000

/-- The HARV records delivered between two states. -/
def harvRecords (before after : State) : List Record :=
  (after.out.drop before.out.length).filter fun r => decide (r.src = .harv)

/-- The host's `run()` (R188): one SMPL per duration, then the concatenation, oldest first, of `BIN(D)` for
the HARV records those commands made. -/
def hostRun (durations : List Word64) (s : State) : Option (State × List Char) :=
  match runInstrs (durations.map .smpl) s with
  | .next t => some (t, (harvRecords s t).flatMap fun r => binString r.data)
  | .fault _ => none
  | .refused _ => none

end Sys2Proof.Machine
end

