-- ==== Sys2Proof/Machine/Ports.lean ====
section
/-! DEFINITION. The port-level engine of 70_reset_and_hazards.md: one function per rising clock edge, over the
command-level machine. It holds what the command-level state does not: BUSY, the command in flight, the
record waiting for the host, and the handshakes. No architectural rule depends on it (00_scope.md R6). -/

namespace Sys2Proof.Machine

/-- The input ports at one rising edge (R229). -/
structure PortIn where
  rst      : Bool
  cmdValid : Bool
  cmd      : CmdWord
  resReady : Bool
deriving DecidableEq, Repr

/-- The output ports (R229). -/
structure PortOut where
  cmdReady : Bool
  resValid : Bool
  resSrc   : BitVec 1
  resData  : DigestWord
  status   : BitVec 4
deriving DecidableEq, Repr

/-- Where the engine stands with the command it has accepted. -/
inductive Phase where
  /-- No command in flight: BUSY = 0. -/
  | idle
  /-- A command in flight, `left` edges before its last effect (or, when it makes a record, before the record
  is presented); `after` is the state it ends in. -/
  | working (left : Nat) (after : State)
  /-- The record of the command in flight waits for the host (R237). -/
  | presenting (r : Record) (after : State)
deriving DecidableEq, Repr

/-- The port-level engine. `arch` is the architectural state the host can observe: "the state before it or
the state after it, never a state in between" (20_memory.md R57). -/
structure Engine where
  arch     : State
  phase    : Phase
  /-- The word the host has presented and must hold until it is accepted (R234). -/
  hold     : Option CmdWord
  /-- A system reset has happened since power-up (R232). -/
  wasReset : Bool
  /-- The model's own: clock edges so far, for the free values on the result port (log 9). -/
  edges    : Nat
deriving DecidableEq, Repr

/-- The engine right after a system reset. -/
def Engine.reset : Engine :=
  { arch := State.reset, phase := .idle, hold := none, wasReset := true, edges := 0 }

/-- BUSY (R31, R235). -/
def Engine.busy (e : Engine) : Bool :=
  match e.phase with
  | .idle => false
  | .working _ _ => true
  | .presenting _ _ => true

/-- How many compressions a command starts (R235): one for an UPDn that completes a block, one or two for
DIGEST, two for a SMPL that fills the window. -/
def compressionsOf (i : Instr) (s : State) : Nat :=
  match i with
  | .nop => 0
  | .reset => 0
  | .digest => if s.fill.val ≤ 55 then 1 else 2
  | .upd1 _ => if 64 ≤ s.fill.val + 1 then 1 else 0
  | .upd2 _ => if 64 ≤ s.fill.val + 2 then 1 else 0
  | .upd3 _ => if 64 ≤ s.fill.val + 3 then 1 else 0
  | .upd4 _ => if 64 ≤ s.fill.val + 4 then 1 else 0
  | .upd5 _ => if 64 ≤ s.fill.val + 5 then 1 else 0
  | .upd6 _ => if 64 ≤ s.fill.val + 6 then 1 else 0
  | .upd7 _ => if 64 ≤ s.fill.val + 7 then 1 else 0
  | .upd8 _ => if 64 ≤ s.fill.val + 8 then 1 else 0
  | .smpl _ =>
    match s.params.harvester with
    | .absent => 0
    | .present =>
      if s.ns = BitVec.allOnes 64 then 0
      else if (pushBit s.win false).length = winCapacity then 2 else 0

/-- Cycles from the accepting edge to the last effect, less the record's own transfer (the table of R238). -/
def workCycles (w : CmdWord) (s : State) : Nat :=
  match decode s.params.harvester w with
  | .command i => 1 + compressionsOf i s * s.params.latC
  | .reserved _ => 1

/-- The record a command has made, if it made one (a command emits at most one, 20_memory.md R61). -/
def newRecord (before after : State) : Option Record := (after.out.drop before.out.length).head?

/-- The host keeps the word it holds (R234). -/
def holdsWord (e : Engine) (i : PortIn) : Bool :=
  match e.hold with
  | none => true
  | some w => i.cmdValid && decide (i.cmd = w)

/-- Accept a word at an idle edge: the command starts, BUSY rises (R235). -/
def acceptWord (w : CmdWord) (e : Engine) : Host.Outcome Engine Fault Refusal :=
  match performWord w e.arch with
  | .next t =>
    .next { e with phase := .working (workCycles w e.arch) t, hold := none, edges := e.edges + 1 }
  | .fault r => .fault r
  | .refused r => .refused r

/-- An edge on which the command in flight makes its last state write, or presents its record. -/
def finishWork (after : State) (e : Engine) : Engine :=
  match newRecord e.arch after with
  | none => { e with arch := after, phase := .idle }
  | some r => { e with phase := .presenting r after }

/-- What a busy engine does at an edge with `rst = 0`; it takes no word (R235, R237). -/
def advance (resReady : Bool) (e : Engine) : Engine :=
  match e.phase with
  | .idle => e
  | .working left after =>
    if left ≤ 1 then finishWork after e else { e with phase := .working (left - 1) after }
  | .presenting _ after => if resReady then { e with arch := after, phase := .idle } else e

/-- A rising edge with `rst = 1` (R230, R231): every piece of state takes its reset value, whatever the
command in flight had done. A held word is forgotten (log 9). -/
def resetEdge (e : Engine) : Engine :=
  { arch := systemReset e.arch, phase := .idle, hold := none, wasReset := true, edges := e.edges + 1 }

/-- A rising edge of a busy engine: it moves on, and a word the host presents is not taken and must be
held. -/
def busyEdge (i : PortIn) (e : Engine) : Engine :=
  { advance i.resReady e with
    hold := if i.cmdValid then some i.cmd else none
    edges := e.edges + 1 }

/-- One rising edge of `clk`. -/
def edge (i : PortIn) (e : Engine) : Host.Outcome Engine Fault Refusal :=
  if i.rst then .next (resetEdge e)
  else if !e.wasReset then .refused .neverReset
  else if !holdsWord e i then .refused .handshakeBroken
  else
    match e.phase with
    | .idle => if i.cmdValid then acceptWord i.cmd e else .next { e with edges := e.edges + 1 }
    | .working _ _ => .next (busyEdge i e)
    | .presenting _ _ => .next (busyEdge i e)

/-- The output ports while no record is presented; the result port then carries a free value (log 9). -/
def quietOutputs (cmdReady : Bool) (status : BitVec 4) (e : Engine) : PortOut :=
  { cmdReady := cmdReady
    resValid := false
    resSrc := (Config.idleResult e.edges).1
    resData := (Config.idleResult e.edges).2
    status := status }

/-- The output ports, with `rst` at its present level. "While `rst = 1`, `cmd_ready = 0` and
`res_valid = 0`" (R230), on a block that was never reset too; its STATUS is then a free value (log 9). -/
def outputs (rst : Bool) (e : Engine) : Host.Outcome PortOut Fault Refusal :=
  if !e.wasReset then
    if rst then .next (quietOutputs false (Config.powerUpStatus e.edges) e) else .refused .neverReset
  else
    let quiet := quietOutputs (!rst && !e.busy) (statusWord e.busy e.arch.err e.arch.cause) e
    match e.phase with
    | .idle => .next quiet
    | .working _ _ => .next quiet
    | .presenting r _ =>
      if rst then .next quiet
      else .next { quiet with resValid := true, resSrc := sourceBit r.src, resData := r.data }

/-- A run of edges, the first one first, stopping at a refusal. -/
def edges : List PortIn → Engine → Host.Outcome Engine Fault Refusal
  | [], e => .next e
  | i :: rest, e =>
    match edge i e with
    | .next e' => edges rest e'
    | .fault r => .fault r
    | .refused r => .refused r

/-- An edge at which the host presents `w`. -/
def presentEdge (w : CmdWord) (resReady : Bool) : PortIn :=
  { rst := false, cmdValid := true, cmd := w, resReady := resReady }

/-- An edge at which the host presents no word. -/
def quietEdge (resReady : Bool) : PortIn :=
  { rst := false, cmdValid := false, cmd := 0, resReady := resReady }

end Sys2Proof.Machine
end

