-- ==== Sys2Proof/Safety.lean ====
section
/-! DEFINITION. What the claims are stated in: a good state, the invariant of the block, and when the hash
context stands for a message. -/

namespace Sys2Proof.Machine

/-- A good state: no error recorded. "A state with ERR = 1 is a fault state: it is never a good final
state" (60_exceptions.md R212, 10_state.md R29). -/
abbrev State.good (s : State) : Prop := s.err = false

/-- The hash context is the initial context `CTX0` (R25); BUF is unspecified. -/
abbrev State.atCtx0 (s : State) : Prop := s.h = iv ∧ s.fill = 0 ∧ s.bitcnt = 0#64

/-- The number of HARV records in OUT. -/
def State.harvCount (s : State) : Nat := s.out.countP fun r => decide (r.src = .harv)

/-- The invariant of the block: its parameters are ones R7 allows, and what relates ERR and CAUSE (R29, R30),
WIN and NS (R33, R183), SUM and NS (R35), OUT and NS (R186), and what a block without a harvester lacks
(42_harvester.md). -/
structure State.Inv (s : State) : Prop where
  /-- The block is one that can be built (00_scope.md R7, R114). -/
  legal : s.params.wf = true
  /-- No cause without an error (R30). -/
  quiet : s.err = false → s.cause = 0b00#2
  /-- With an error, one of the two causes; 0b11 is never written (R30). -/
  causes : s.err = true → s.cause = 0b01#2 ∨ s.cause = 0b10#2
  /-- The overflow cause is there only with NS at its last value (R210, R34). -/
  overflow : s.cause = 0b10#2 → s.ns = BitVec.allOnes 64
  /-- WCNT grows by one per sample up to 512 and then stays at 512 (R183). -/
  window : s.win.length = min s.ns.toNat winCapacity
  /-- Each duration is at least −2^63 (R35). -/
  sumLow : -((2 : Int) ^ 63 * s.ns.toNat) ≤ s.sum
  /-- Each duration is below 2^63 (R35). -/
  sumHigh : s.sum ≤ ((2 : Int) ^ 63 - 1) * s.ns.toNat
  /-- The first 511 samples emit no record and every later one emits one (R186). -/
  yield : s.harvCount = s.ns.toNat - 511
  /-- Without a harvester nothing of its state moves (42_harvester.md: "WIN, NS and SUM do not exist"). -/
  noHarvester : s.params.harvester = .absent → s.ns = 0#64 ∧ s.sum = 0

/-- The hash context stands for the message `msg` absorbed so far (R22 to R25): H is the chaining value after
its full blocks, BUF[0..FILL-1] its last bytes, BITCNT the bits of its full blocks modulo 2^64. -/
structure State.Holds (s : State) (msg : List Byte) : Prop where
  chained : s.h = chain (blocksOf msg)
  filled : s.fill.val = msg.length % 64
  buffered : ∀ j : Fin 64, j.val < s.fill.val →
    s.buf[j.val] = msg.getD (64 * (msg.length / 64) + j.val) 0
  counted : s.bitcnt = BitVec.ofNat 64 (512 * (msg.length / 64))

/-- Two states agree on everything the spec defines: all but the bytes of BUF at and beyond FILL (R22) and
the model's own count of free values. -/
structure State.Agrees (s t : State) : Prop where
  params : s.params = t.params
  h : s.h = t.h
  fill : s.fill = t.fill
  buf : ∀ j : Fin 64, j.val < s.fill.val → s.buf[j.val] = t.buf[j.val]
  bitcnt : s.bitcnt = t.bitcnt
  err : s.err = t.err
  cause : s.cause = t.cause
  win : s.win = t.win
  ns : s.ns = t.ns
  sum : s.sum = t.sum
  out : s.out = t.out
  inbox : s.inbox = t.inbox

/-- The harvester's state is the same (WIN, NS, SUM). -/
abbrev State.sameHarvester (s t : State) : Prop := s.win = t.win ∧ s.ns = t.ns ∧ s.sum = t.sum

/-- The hash context is the same, every byte of BUF included. -/
abbrev State.sameContext (s t : State) : Prop :=
  s.h = t.h ∧ s.buf = t.buf ∧ s.fill = t.fill ∧ s.bitcnt = t.bitcnt

/-- The error state is the same. -/
abbrev State.sameErrors (s t : State) : Prop := s.err = t.err ∧ s.cause = t.cause

/-- What no command touches: the parameters and what the host presents next. -/
abbrev State.sameHost (s t : State) : Prop := s.params = t.params ∧ s.inbox = t.inbox

end Sys2Proof.Machine
end

