-- ==== Sys2Proof/Certificates/Slice0/Obligations.lean ====
section
/-! DEFINITION. The statements for the provers, each taken from the numbered rules of spec/. -/

/-! ## Words the statements use -/

namespace Sys2Proof.Claims

open Sys2Proof.Machine

/-- The reserved opcodes of R76, by the ranges the rule gives. -/
def reservedOp (hv : Harvester) (op : BitVec 8) : Prop :=
  (0x03 ≤ op.toNat ∧ op.toNat ≤ 0x0F) ∨ (0x18 ≤ op.toNat ∧ op.toNat ≤ 0x1F) ∨ 0x21 ≤ op.toNat ∨
    (op.toNat = 0x20 ∧ hv = .absent)

/-- The bits of a command word that the command reads: OP, and the operand bits the opcode table marks `b`
or `d` (R72, R73, R75). -/
def usedBits : Instr → CmdWord
  | .nop => 0xFF0000000000000000#72
  | .reset => 0xFF0000000000000000#72
  | .digest => 0xFF0000000000000000#72
  | .upd1 _ => 0xFF00000000000000FF#72
  | .upd2 _ => 0xFF000000000000FFFF#72
  | .upd3 _ => 0xFF0000000000FFFFFF#72
  | .upd4 _ => 0xFF00000000FFFFFFFF#72
  | .upd5 _ => 0xFF000000FFFFFFFFFF#72
  | .upd6 _ => 0xFF0000FFFFFFFFFFFF#72
  | .upd7 _ => 0xFF00FFFFFFFFFFFFFF#72
  | .upd8 _ => 0xFFFFFFFFFFFFFFFFFF#72
  | .smpl _ => 0xFFFFFFFFFFFFFFFFFF#72

/-- The command is no SMPL. -/
def isHashCommand : Instr → Bool
  | .nop => true
  | .reset => true
  | .digest => true
  | .upd1 _ => true
  | .upd2 _ => true
  | .upd3 _ => true
  | .upd4 _ => true
  | .upd5 _ => true
  | .upd6 _ => true
  | .upd7 _ => true
  | .upd8 _ => true
  | .smpl _ => false

/-- The next full block of a message: the bytes held in BUF, then new ones. -/
def streamBlock (s : State) (bytes : List Byte) : Block :=
  Vector.ofFn fun j => if j.val < s.fill.val then s.buf[j] else bytes.getD (j.val - s.fill.val) 0

/-- The rule of UPDn (R142) in closed form, for a command that supplies `bytes`: it completes in every state;
with room left the bytes go to BUF[FILL..]; else the bytes up to the boundary complete the block, one
compression runs, BITCNT grows by 512 modulo 2^64, and the rest start the next block. Nothing else of
the state changes. -/
def AbsorbsExactly (i : Instr) (bytes : List Byte) : Prop :=
  ∀ s : State, ∃ t, exec i s = .next t ∧
    (s.fill.val + bytes.length < 64 →
      t.h = s.h ∧ t.bitcnt = s.bitcnt ∧ t.fill.val = s.fill.val + bytes.length ∧
      ∀ j : Fin 64, t.buf[j] =
        if s.fill.val ≤ j.val ∧ j.val < s.fill.val + bytes.length
        then bytes.getD (j.val - s.fill.val) 0 else s.buf[j]) ∧
    (64 ≤ s.fill.val + bytes.length →
      t.h = compress s.h (streamBlock s bytes) ∧ t.bitcnt = s.bitcnt + 512#64 ∧
      t.fill.val = s.fill.val + bytes.length - 64 ∧
      ∀ j : Fin 64, j.val < t.fill.val → t.buf[j] = bytes.getD (64 - s.fill.val + j.val) 0) ∧
    t.out = s.out ∧ t.sameErrors s ∧ t.sameHarvester s ∧ t.sameHost s

/-- Byte `j ≥ 56` of a block whose last eight bytes are the big-endian length `len` (R52). -/
def lengthByte (len : Word64) (j : Fin 64) : Byte := len.extractLsb' (8 * (63 - j.val)) 8

/-- The last block when 0x80 and the length fit behind the message bytes (R151, `f < 56`). -/
def onePadBlock (s : State) (len : Word64) : Block :=
  Vector.ofFn fun j =>
    if j.val < s.fill.val then s.buf[j] else if j.val = s.fill.val then 0x80#8
    else if j.val < 56 then 0x00#8 else lengthByte len j

/-- The extra block of R151 (`56 ≤ f`): the message bytes, 0x80, zeros. -/
def extraPadBlock (s : State) : Block :=
  Vector.ofFn fun j =>
    if j.val < s.fill.val then s.buf[j] else if j.val = s.fill.val then 0x80#8 else 0x00#8

/-- The block that follows the extra block: zeros and the length. -/
def lengthBlock (len : Word64) : Block :=
  Vector.ofFn fun j => if j.val < 56 then 0x00#8 else lengthByte len j

/-- A HOST record. -/
def isHost (r : Record) : Bool := decide (r.src = .host)

/-- What `raise` leaves (R211): ERR set, the first cause kept, nothing else changed. -/
def withError (s : State) (code : BitVec 2) : State :=
  { s with err := true, cause := if s.err then s.cause else code }

/-- The prime numbers up to 311, in order (R107, R108). -/
def primes : List Nat :=
  (List.range 312).filter fun n => decide (2 ≤ n ∧ ∀ m < n, 2 ≤ m → n % m ≠ 0)

/-- The words of IV in order. -/
def ivList : List Word := [iv.a, iv.b, iv.c, iv.d, iv.e, iv.f, iv.g, iv.h]

/-- The lowercase hexadecimal digits (R153). -/
def hexDigits : List Char :=
  ['0', '1', '2', '3', '4', '5', '6', '7', '8', '9', 'a', 'b', 'c', 'd', 'e', 'f']

/-- What the port-level engine owes the host (20_memory.md R61, R237): the command in flight adds at most one
record, and a presented record is the one it adds. -/
def Owes (e : Engine) : Prop :=
  match e.phase with
  | .idle => True
  | .working _ after => ∃ rs, rs.length ≤ 1 ∧ after.out = e.arch.out ++ rs
  | .presenting r after => after.out = e.arch.out ++ [r]

/-- An upper bound on the edges until an engine whose host takes records at once is idle. -/
def edgesLeft (e : Engine) : Nat :=
  match e.phase with
  | .idle => 0
  | .working left _ => max left 1 + 1
  | .presenting _ _ => 1

/-- Where the command in flight, if there is one, leaves the block. -/
def finalState (e : Engine) : State :=
  match e.phase with
  | .idle => e.arch
  | .working _ after => after
  | .presenting _ after => after

/-- What an edge may do to the block and to the command in flight: both states meet the invariant and belong to
the same block. -/
def PortInv (e : Engine) : Prop :=
  e.arch.Inv ∧ (finalState e).Inv ∧ (finalState e).params = e.arch.params

/-- The table of R238 by OP: the cycles from the accepting edge to the last effect, and for a command that
makes a record to the edge from which it is presented (the table's `+ 1 + R` is the record's own
transfer). -/
def tableCycles (w : CmdWord) (s : State) : Nat :=
  if opField w = 0x02#8 then
    if s.fill.val ≤ 55 then 1 + s.params.latC else 1 + 2 * s.params.latC
  else if 0x10 ≤ (opField w).toNat ∧ (opField w).toNat ≤ 0x17 then
    if s.fill.val + ((opField w).toNat - 0x0F) < 64 then 1 else 1 + s.params.latC
  else if opField w = 0x20#8 ∧ s.params.harvester = .present ∧ s.ns ≠ BitVec.allOnes 64 ∧
      (s.win.length = 511 ∨ s.win.length = 512) then 1 + 2 * s.params.latC
  else 1

/-- Edges with `rst = 0` before a busy engine, on which the host keeps its duty of R234: the word it holds stays
valid and unchanged, and a word it begins to present it holds from then on. -/
def HostKeeps : Option CmdWord → List PortIn → Prop
  | _, [] => True
  | held, i :: rest =>
    i.rst = false ∧ (∀ w, held = some w → i.cmdValid = true ∧ i.cmd = w) ∧
      HostKeeps (if i.cmdValid then some i.cmd else none) rest

end Sys2Proof.Claims

open Sys2Proof Sys2Proof.Machine Sys2Proof.Claims

/-! ## Encoding (30_encoding.md) -/

/-- R70, R72, R73, R75: decoding the word of a command of the block gives that command, with every operand
at every value. -/
def Obligations.DecodeOfEncodeIsTheCommand : Prop :=
  ∀ (hv : Harvester) (i : Instr), i.wellFormed hv = true → decode hv (encode i) = .command i

/-- R70, R75, R79: a word that decodes to a command is that command's word but for the ignored bits, and the
command exists on the block. -/
def Obligations.EncodeOfDecodeClearsIgnoredBits : Prop :=
  ∀ (hv : Harvester) (w : CmdWord) (i : Instr), decode hv w = .command i →
    i.wellFormed hv = true ∧ encode i = w &&& usedBits i

/-- R75: "An ignored bit has no effect on any state or result for any value."; a decoder accepts any value in
the ignored bits, and the assembler writes them as 0. -/
def Obligations.IgnoredBitsHaveNoEffect : Prop :=
  (∀ (s : State) (w w' : CmdWord) (i : Instr),
    decode s.params.harvester w = .command i → w &&& usedBits i = w' &&& usedBits i →
    decode s.params.harvester w' = .command i ∧ performWord w' s = performWord w s) ∧
  (∀ i : Instr, encode i &&& usedBits i = encode i)

/-- R76: the reserved opcodes are exactly the listed ones; a reserved word sets ERR and CAUSE by R211 and has
no other effect; every other word is a command. -/
def Obligations.ReservedWordsRaiseErrReserved : Prop :=
  (∀ (w : CmdWord) (s : State), reservedOp s.params.harvester (opField w) →
    decode s.params.harvester w = .reserved (opField w) ∧
    performWord w s = .next (withError s 0b01#2)) ∧
  (∀ (hv : Harvester) (w : CmdWord), ¬ reservedOp hv (opField w) → ∃ i, decode hv w = .command i)

/-- The model's form of R76 (log 7): the meaning of SMPL on a block without a harvester is ErrReserved, as its
word's is. -/
def Obligations.SmplWithoutHarvesterIsReserved : Prop :=
  ∀ (data : Word64) (s : State), s.params.harvester = .absent →
    exec (.smpl data) s = .next (withError s 0b01#2) ∧
    performWord (rawWord 0x20#8 data) s = .next (withError s 0b01#2)

/-- R72 and spec/opcode_table.json: a word belongs to a row's mask and pattern exactly when it decodes, on a
block with the harvester, to a command of the row's mnemonic. -/
def Obligations.DecodeFollowsTheOpcodeTable : Prop :=
  ∀ (w : CmdWord) (r : OpcodeRow), r ∈ opcodeRows →
    (r.covers w = true ↔ ∃ i, decode .present w = .command i ∧ i.mnemonic = r.mnemonic)

/-- R81: the sample encodings. -/
def Obligations.SampleWordsDecodeAsListed : Prop :=
  decode .present 0x000000000000000000#72 = .command .nop ∧
  decode .present 0x010000000000000000#72 = .command .reset ∧
  decode .present 0x020000000000000000#72 = .command .digest ∧
  decode .present 0x100000000000000061#72 = .command (.upd1 0x61#8) ∧
  decode .present 0x120000000000616263#72 = .command (.upd3 0x616263#24) ∧
  decode .present 0x176162636462636465#72 = .command (.upd8 0x6162636462636465#64) ∧
  decode .present 0x200000000000000064#72 = .command (.smpl 100#64) ∧
  decode .present 0x20FFFFFFFFFFFFFFFF#72 = .command (.smpl (BitVec.ofInt 64 (-1))) ∧
  decode .present 0x030000000000000000#72 = .reserved 0x03#8

/-! ## The step -/

/-- The model's choice (log 1; log 12 for the 72-bit table word): the host's words to come stand in the inbox, a
step takes the first and performs the command it decodes to in the state without it, or raises
ErrReserved (00_scope.md R6, 20_memory.md R60 give the one atomic step per accepted command);
`withFetchWord` presents a word. -/
def Obligations.StepRunsTheDecodedCommand : Prop :=
  (∀ (s : State) (w : CmdWord) (rest : List HostInput), s.inbox = .command w :: rest →
    (∀ i, decode s.params.harvester w = .command i → step s = exec i { s with inbox := rest }) ∧
    (∀ op, decode s.params.harvester w = .reserved op →
      step s = .next (withError { s with inbox := rest } 0b01#2))) ∧
  (∀ (s : State) (w : CmdWord), step (s.withFetchWord 72 w.toNat) = performWord w s)

/-- The model's choice (log 1, log 2): with nothing presented the block is idle and keeps its state; an input
that is a system reset gives the reset values of R38 and keeps the parameters and the rest of the
inbox. -/
def Obligations.StepIdlesOrTakesASystemReset : Prop :=
  (∀ s : State, s.inbox = [] → step s = .next s) ∧
  (∀ (s : State) (rest : List HostInput), s.inbox = .systemReset :: rest →
    ∃ t, step s = .next t ∧ t.atCtx0 ∧ t.err = false ∧ t.cause = 0b00#2 ∧ t.win = [] ∧ t.ns = 0#64 ∧
      t.sum = 0 ∧ t.out = [] ∧ t.params = s.params ∧ t.inbox = rest)

/-- 00_scope.md R7, log 1, log 5: a step changes no parameter and uses up one input of the host. -/
def Obligations.StepKeepsParametersAndUsesOneInput : Prop :=
  ∀ s t : State, step s = .next t → t.params = s.params ∧ t.inbox = s.inbox.tail

/-- R38: the state after a system reset, by the values the rule gives. -/
def Obligations.ResetStateHasTheListedValues : Prop :=
  State.reset.h =
    { a := 0x6a09e667#32, b := 0xbb67ae85#32, c := 0x3c6ef372#32, d := 0xa54ff53a#32,
      e := 0x510e527f#32, f := 0x9b05688c#32, g := 0x1f83d9ab#32, h := 0x5be0cd19#32 } ∧
  State.reset.fill = 0 ∧ State.reset.bitcnt = 0#64 ∧ State.reset.err = false ∧
  State.reset.cause = 0b00#2 ∧ State.reset.status = 0b0000#4 ∧ State.reset.win = [] ∧
  State.reset.wcnt = 0 ∧ State.reset.ns = 0#64 ∧ State.reset.sum = 0 ∧ State.reset.out = []

/-- R28: the fields of STATUS between commands. -/
def Obligations.StatusHoldsBusyErrAndCause : Prop :=
  ∀ s : State, s.status.extractLsb' 0 1 = 0#1 ∧ s.status.extractLsb' 1 1 = BitVec.ofBool s.err ∧
    s.status.extractLsb' 2 2 = s.cause

/-! ## Hash commands (41_hash_commands.md) -/

/-- R140: NOP changes nothing, whatever DATA is. -/
def Obligations.NopChangesNothing : Prop :=
  (∀ s : State, exec .nop s = .next s) ∧
  (∀ (data : Word64) (s : State), performWord (rawWord 0x00#8 data) s = .next s)

/-- R141: RESET returns the hash context to `CTX0` and changes nothing else (BUF becomes unspecified). -/
def Obligations.ResetReturnsTheContext : Prop :=
  ∀ s : State, ∃ t, exec .reset s = .next t ∧ t.atCtx0 ∧ t.out = s.out ∧ t.sameErrors s ∧
    t.sameHarvester s ∧ t.sameHost s

/-- R142 to R150: each UPDn absorbs exactly its bytes, the most significant first. That the bytes of BUF at and
beyond FILL + n keep their values is the model's choice (log 15); R22 gives them no defined value. -/
def Obligations.UpdAbsorbsItsBytes : Prop :=
  (∀ d : BitVec 8, AbsorbsExactly (.upd1 d) [d.extractLsb' 0 8]) ∧
  (∀ d : BitVec 16, AbsorbsExactly (.upd2 d) [d.extractLsb' 8 8, d.extractLsb' 0 8]) ∧
  (∀ d : BitVec 24, AbsorbsExactly (.upd3 d)
    [d.extractLsb' 16 8, d.extractLsb' 8 8, d.extractLsb' 0 8]) ∧
  (∀ d : BitVec 32, AbsorbsExactly (.upd4 d)
    [d.extractLsb' 24 8, d.extractLsb' 16 8, d.extractLsb' 8 8, d.extractLsb' 0 8]) ∧
  (∀ d : BitVec 40, AbsorbsExactly (.upd5 d)
    [d.extractLsb' 32 8, d.extractLsb' 24 8, d.extractLsb' 16 8, d.extractLsb' 8 8,
     d.extractLsb' 0 8]) ∧
  (∀ d : BitVec 48, AbsorbsExactly (.upd6 d)
    [d.extractLsb' 40 8, d.extractLsb' 32 8, d.extractLsb' 24 8, d.extractLsb' 16 8,
     d.extractLsb' 8 8, d.extractLsb' 0 8]) ∧
  (∀ d : BitVec 56, AbsorbsExactly (.upd7 d)
    [d.extractLsb' 48 8, d.extractLsb' 40 8, d.extractLsb' 32 8, d.extractLsb' 24 8,
     d.extractLsb' 16 8, d.extractLsb' 8 8, d.extractLsb' 0 8]) ∧
  (∀ d : BitVec 64, AbsorbsExactly (.upd8 d)
    [d.extractLsb' 56 8, d.extractLsb' 48 8, d.extractLsb' 40 8, d.extractLsb' 32 8,
     d.extractLsb' 24 8, d.extractLsb' 16 8, d.extractLsb' 8 8, d.extractLsb' 0 8])

/-- R151, R152: DIGEST pads, compresses once (FILL ≤ 55) or twice (FILL ≥ 56), emits `(HOST, D)` and returns
the context to `CTX0`; nothing else changes. -/
def Obligations.DigestPadsEmitsAndResets : Prop :=
  ∀ s : State, ∃ t hfin, exec .digest s = .next t ∧
    (s.fill.val ≤ 55 →
      hfin = compress s.h (onePadBlock s (s.bitcnt + BitVec.ofNat 64 (8 * s.fill.val)))) ∧
    (56 ≤ s.fill.val →
      hfin = compress (compress s.h (extraPadBlock s))
        (lengthBlock (s.bitcnt + BitVec.ofNat 64 (8 * s.fill.val)))) ∧
    t.out = s.out ++
      [{ src := .host
         data := hfin.a ++ hfin.b ++ hfin.c ++ hfin.d ++ hfin.e ++ hfin.f ++ hfin.g ++ hfin.h }] ∧
    t.atCtx0 ∧ t.sameErrors s ∧ t.sameHarvester s ∧ t.sameHost s

/-- R156: the second of two DIGESTs in a row emits the digest of the empty message. -/
def Obligations.SecondDigestIsOfTheEmptyMessage : Prop :=
  ∀ s : State, ∃ t u, exec .digest s = .next t ∧ exec .digest t = .next u ∧
    u.out = t.out ++
      [{ src := .host
         data := 0xe3b0c44298fc1c149afbf4c8996fb92427ae41e4649b934ca495991b7852b855#256 }]

/-- R22 to R25 and R142: from a context that stands for a message, NOP, UPDn and SMPL lead to the context that
stands for the message with the command's bytes after it; the initial context stands for the empty
message. -/
def Obligations.CommandsExtendTheMessage : Prop :=
  (∀ s : State, s.atCtx0 → s.Holds []) ∧
  (∀ (i : Instr) (s : State) (msg : List Byte), keepsMessage i = true → s.Holds msg →
    ∃ t, exec i s = .next t ∧ t.Holds (msg ++ messageBytes i))

/-- R155: from `CTX0`, any sequence of NOP, UPDn and SMPL commands and then DIGEST emits exactly one HOST
record, SHA256 of the bytes the commands supplied, and leaves the context at `CTX0`; with no SMPL among
them that record is all they emit. -/
def Obligations.DigestOfAnySplitIsSha256 : Prop :=
  ∀ (cs : List Instr) (s : State), s.atCtx0 → (∀ c ∈ cs, keepsMessage c = true) →
    ∃ t, runInstrs (cs ++ [.digest]) s = .next t ∧ t.atCtx0 ∧
      t.out.filter isHost =
        s.out.filter isHost ++ [{ src := .host, data := sha256 (cs.flatMap messageBytes) }] ∧
      ((∀ c ∈ cs, isHashCommand c = true) →
        t.out = s.out ++ [{ src := .host, data := sha256 (cs.flatMap messageBytes) }])

/-- R80, R155: the words of `HASH "<text>"`, run from any state, emit `(HOST, SHA256(text))` and nothing else,
and leave the context at `CTX0`. -/
def Obligations.HashPseudoInstructionDeliversSha256 : Prop :=
  ∀ (bytes : List Byte) (s : State), ∃ ws t,
    assembleLine (.hash bytes) = some ws ∧ runWords ws s = .next t ∧ t.atCtx0 ∧
    t.out = s.out ++ [{ src := .host, data := sha256 bytes }] ∧
    t.sameErrors s ∧ t.sameHarvester s ∧ t.sameHost s

/-- R80: `UPDATE` absorbs exactly the listed bytes in the listed order. -/
def Obligations.UpdatePseudoInstructionAbsorbsItsBytes : Prop :=
  ∀ (bytes msg : List Byte) (s : State), s.Holds msg →
    ∃ ws t, assembleLine (.update bytes) = some ws ∧ runWords ws s = .next t ∧
      t.Holds (msg ++ bytes) ∧ t.out = s.out

/-- R21: no command word but an UPDn that completes a block, RESET and DIGEST writes H. -/
def Obligations.OnlyTheHashCommandsWriteH : Prop :=
  ∀ (w : CmdWord) (s t : State), performWord w s = .next t → t.h ≠ s.h →
    opField w = 0x01#8 ∨ opField w = 0x02#8 ∨
    ∃ n, 1 ≤ n ∧ n ≤ 8 ∧ opField w = BitVec.ofNat 8 (0x0F + n) ∧ 64 ≤ s.fill.val + n

/-- R158: a hash command reads and writes nothing of the harvester, and SMPL reads and writes nothing of the
hash context: what each does to its own half, and the records it makes, are the same whatever the other
half holds. -/
def Obligations.HashContextAndHarvesterAreIndependent : Prop :=
  (∀ (i : Instr) (s1 s2 t1 t2 : State), isHashCommand i = true →
    s1.h = s2.h → s1.fill = s2.fill → s1.bitcnt = s2.bitcnt →
    (∀ j : Fin 64, j.val < s1.fill.val → s1.buf[j] = s2.buf[j]) →
    exec i s1 = .next t1 → exec i s2 = .next t2 →
    t1.sameHarvester s1 ∧ t1.h = t2.h ∧ t1.fill = t2.fill ∧ t1.bitcnt = t2.bitcnt ∧
    (∀ j : Fin 64, j.val < t1.fill.val → t1.buf[j] = t2.buf[j]) ∧
    ∃ rs, t1.out = s1.out ++ rs ∧ t2.out = s2.out ++ rs) ∧
  (∀ (data : Word64) (s1 s2 t1 t2 : State), s1.params = s2.params → s1.sameHarvester s2 →
    exec (.smpl data) s1 = .next t1 → exec (.smpl data) s2 = .next t2 →
    t1.sameContext s1 ∧ t1.sameHarvester t2 ∧ ∃ rs, t1.out = s1.out ++ rs ∧ t2.out = s2.out ++ rs)

/-- R22: no observable output depends on the bytes of BUF at and beyond FILL: steps from states that agree on
everything else lead to states that agree on everything else, OUT and STATUS among it. -/
def Obligations.UnspecifiedBufferBytesAreUnobservable : Prop :=
  ∀ s1 s2 t1 : State, s1.Agrees s2 → step s1 = .next t1 → ∃ t2, step s2 = .next t2 ∧ t1.Agrees t2

/-! ## Compression (40_compression.md) -/

/-- R101, R102: Ch selects and Maj votes, bit by bit; derived from R100's shifts: ROTR moves bit `i + n` to bit
`i`, round the word. -/
def Obligations.WordFunctionsAreBitwise : Prop :=
  (∀ (x y z : Word) (i : Nat),
    (ch x y z).getLsbD i = (if x.getLsbD i then y.getLsbD i else z.getLsbD i)) ∧
  (∀ (x y z : Word) (i : Nat),
    (maj x y z).getLsbD i =
      decide (2 ≤ (x.getLsbD i).toNat + (y.getLsbD i).toNat + (z.getLsbD i).toNat)) ∧
  (∀ (x : Word) (n i : Nat), 0 < n → n < 32 → i < 32 →
    (rotr x n).getLsbD i = x.getLsbD ((i + n) % 32))

/-- R107, R108: IV and K are the first 32 bits of the fractional parts of the square roots of the first 8 and
of the cube roots of the first 64 primes. -/
def Obligations.ConstantsAreRootsOfPrimes : Prop :=
  (∀ i, i < 8 → (ivList.getD i 0).toNat = Nat.sqrt (primes.getD i 0 * 2 ^ 64) % 2 ^ 32) ∧
  primes.length = 64 ∧
  (∀ t, t < 64 → ∃ r : Nat, r ^ 3 ≤ primes.getD t 0 * 2 ^ 96 ∧
    primes.getD t 0 * 2 ^ 96 < (r + 1) ^ 3 ∧ (roundConst t).toNat = r % 2 ^ 32)

/-- R110, R111: COMPRESS starts the working variables at the chaining value, applies the round's equations for
t = 0 to 63 with `K[t]` and `W[t]`, and adds the chaining value word by word. -/
def Obligations.CompressIsSixtyFourRounds : Prop :=
  ∀ (hv : HashWords) (blk : Block), ∃ v : Nat → HashWords, v 0 = hv ∧
    (∀ t, t < 64 →
      (v (t + 1)).a = (v t).h + bigSigma1 (v t).e + ch (v t).e (v t).f (v t).g + roundConst t +
        (schedule blk).getD t 0 + (bigSigma0 (v t).a + maj (v t).a (v t).b (v t).c) ∧
      (v (t + 1)).b = (v t).a ∧ (v (t + 1)).c = (v t).b ∧ (v (t + 1)).d = (v t).c ∧
      (v (t + 1)).e = (v t).d + ((v t).h + bigSigma1 (v t).e + ch (v t).e (v t).f (v t).g +
        roundConst t + (schedule blk).getD t 0) ∧
      (v (t + 1)).f = (v t).e ∧ (v (t + 1)).g = (v t).f ∧ (v (t + 1)).h = (v t).g) ∧
    compress hv blk =
      { a := hv.a + (v 64).a, b := hv.b + (v 64).b, c := hv.c + (v 64).c, d := hv.d + (v 64).d,
        e := hv.e + (v 64).e, f := hv.f + (v 64).f, g := hv.g + (v 64).g, h := hv.h + (v 64).h }

/-- R109: the schedule, word by word. -/
def Obligations.ScheduleFollowsTheRecurrence : Prop :=
  ∀ blk : Block, (schedule blk).length = 64 ∧
    (∀ t : Fin 16, (schedule blk).getD t.val 0 =
      be32 blk[4 * t.val] blk[4 * t.val + 1] blk[4 * t.val + 2] blk[4 * t.val + 3]) ∧
    (∀ t, 16 ≤ t → t < 64 → (schedule blk).getD t 0 =
      smallSigma1 ((schedule blk).getD (t - 2) 0) + (schedule blk).getD (t - 7) 0 +
        smallSigma0 ((schedule blk).getD (t - 15) 0) + (schedule blk).getD (t - 16) 0)

/-- R112: before round `t ≥ 16` the rolling window holds `w[i] = W[t − 16 + i]`, and its new word is `W[t]`. -/
def Obligations.RollingScheduleIsTheSchedule : Prop :=
  ∀ (blk : Block) (t : Nat), 16 ≤ t → t < 64 →
    (∀ i, i < 16 → (rolledWindow blk (t - 16)).getD i 0 = (schedule blk).getD (t - 16 + i) 0) ∧
    rollingWord (rolledWindow blk (t - 16)) = (schedule blk).getD t 0

/-- R113: the unrolled datapath computes COMPRESS. -/
def Obligations.UnrolledDatapathIsCompress : Prop :=
  ∀ (hv : HashWords) (blk : Block), unrolled hv blk = compress hv blk

/-- R114: an iterative datapath computes COMPRESS; after the cycle that leaves the counter at `t` its working
variables are those after rounds 0 to `t − 1`. -/
def Obligations.IterativeDatapathIsCompress : Prop :=
  ∀ (k : Nat) (hv : HashWords) (blk : Block), k ∈ iterativeWidths →
    iterative k hv blk = compress hv blk ∧
    ∀ n, n ≤ 64 / k →
      (iterCycles k n (iterLoad hv blk)).t = k * n ∧
      (iterCycles k n (iterLoad hv blk)).vars = roundsUpTo (schedule blk) (k * n) hv

/-- R115: whatever the stage registers hold and whatever enters behind it, an input `(Hv, B)` leaves the
pipeline 64 clocks later as COMPRESS(Hv, B); so does one compression through the empty pipeline. -/
def Obligations.PipelinedDatapathIsCompress : Prop :=
  (∀ (hv : HashWords) (blk : Block) (behind : List (Option Flight))
    (regs : Vector (Option Flight) 64), behind.length = 63 →
    pipeOutput (pipeRun (some (flightOf hv blk) :: behind) regs) = some (compress hv blk)) ∧
  (∀ (hv : HashWords) (blk : Block), pipelined hv blk = some (compress hv blk))

/-- R53: byte `4i + j` of a digest is `H[i][31−8j : 24−8j]`. -/
def Obligations.DigestBytesAreBigEndian : Prop :=
  ∀ (v : HashWords) (i j : Nat), i < 8 → j < 4 →
    (digestBytes (digestValue v)).getD (4 * i + j) 0 =
      ([v.a, v.b, v.c, v.d, v.e, v.f, v.g, v.h].getD i 0).extractLsb' (24 - 8 * j) 8

/-- R153, R154: HEX has 64 lowercase hexadecimal characters, character `i` the digit of `D[255−4i : 252−4i]`; BIN
has 256 characters, character `i` the bit `D[255−i]`; BIN is HEX with each digit expanded to its four
binary digits, most significant first. -/
def Obligations.BinaryRenderingExpandsHex : Prop :=
  ∀ d : DigestWord, (hexString d).length = 64 ∧ (binString d).length = 256 ∧
    (∀ c ∈ hexString d, c ∈ hexDigits) ∧
    (∀ i, i < 64 → hexValue ((hexString d).getD i ' ') = d.extractLsb' (252 - 4 * i) 4) ∧
    (∀ i, i < 256 → (binString d).getD i ' ' = if d.getLsbD (255 - i) then '1' else '0') ∧
    binString d = (hexString d).flatMap fun c => nibbleString (hexValue c)

/-! ## Harvester (42_harvester.md) -/

/-- R181, R182, R183: what SMPL does on a block with the harvester. With NS below its last value it counts the
sample, adds it, decides the bit and pushes it, and emits a record when the window is full; with NS at
its last value it raises ErrSampleOverflow and changes nothing else. The hash context, ERR and CAUSE
(in the first case) and the parameters are unchanged. -/
def Obligations.SmplTakesOneSample : Prop :=
  (∀ (data : Word64) (s : State), s.params.harvester = .present → s.ns ≠ BitVec.allOnes 64 →
    ∃ t bit, exec (.smpl data) s = .next t ∧ t.ns.toNat = s.ns.toNat + 1 ∧
      t.sum = s.sum + data.toInt ∧
      (s.params.meanCmp = .exact → (bit = false ↔ data.toInt * (t.ns.toNat : Int) < t.sum)) ∧
      (s.params.meanCmp = .hostFloat →
        bit = Config.hostFloatMeanBit data.toInt t.ns.toNat t.sum) ∧
      t.win = (if s.win.length = 512 then s.win.tail else s.win) ++ [bit] ∧
      (t.win.length = 512 →
        t.out = s.out ++ [{ src := .harv, data := sha256 (pack t.win).toList }]) ∧
      (t.win.length ≠ 512 → t.out = s.out) ∧
      t.sameContext s ∧ t.sameErrors s ∧ t.sameHost s) ∧
  (∀ (data : Word64) (s : State), s.params.harvester = .present → s.ns = BitVec.allOnes 64 →
    exec (.smpl data) s = .next (withError s 0b10#2))

/-- R184, R185: window bit `8j + k` is bit `7 − k` of byte `j` of PACK(WIN); the SHA256 of the packed window is
two compressions, the second over the padding block of a 64-byte message. -/
def Obligations.WhiteningIsTwoCompressions : Prop :=
  ∀ win : List Bool, win.length = 512 →
    (∀ (j : Fin 64) (k : Nat), k < 8 →
      (pack win)[j].getLsbD (7 - k) = win.getD (8 * j.val + k) false) ∧
    sha256 (pack win).toList =
      digestValue (compress (compress iv (pack win))
        (Vector.ofFn fun j => if j.val = 0 then 0x80#8 else if j.val = 62 then 0x02#8 else 0x00#8))

/-- R187: from a harvester with no samples, equal durations give only ones; SUM is their sum; and every record
from the 512th sample on is the digest of 64 bytes 0xFF. -/
def Obligations.ConstantDurationsGiveOnes : Prop :=
  ∀ (data : Word64) (n : Nat) (s : State), s.params.harvester = .present → s.params.meanCmp = .exact →
    s.win = [] → s.ns = 0#64 → s.sum = 0 → n < 2 ^ 64 →
    ∃ t, runInstrs (List.replicate n (.smpl data)) s = .next t ∧
      t.ns.toNat = n ∧ t.sum = n * data.toInt ∧ t.win = List.replicate (min n 512) true ∧
      t.out = s.out ++ List.replicate (n - 511)
        { src := .harv
          data := 0x8667e718294e9e0df1d30600ba3eeb201f764aad2dad72748643e4a285e1d1f7#256 }

/-- R186, R188: the host's run() from a state that meets the invariant: one record for every sample from the
512th of the block's life on, 256 characters each, all '0' or '1'; so 489 records for a first run of
1000 and 1000 for every later one. -/
def Obligations.HostRunYieldsWholeBlocks : Prop :=
  (∀ (durations : List Word64) (s : State), s.Inv → s.params.harvester = .present →
    s.ns.toNat + durations.length < 2 ^ 64 →
    ∃ t cs, hostRun durations s = some (t, cs) ∧
      cs.length = 256 * ((s.ns.toNat + durations.length - 511) - (s.ns.toNat - 511)) ∧
      ∀ c ∈ cs, c = '0' ∨ c = '1') ∧
  (∀ (durations : List Word64) (s : State), s.Inv → s.params.harvester = .present →
    durations.length = pIter → s.ns = 0#64 → ∃ t cs, hostRun durations s = some (t, cs) ∧ cs.length = 256 * 489) ∧
  (∀ (durations : List Word64) (s : State), s.Inv → s.params.harvester = .present →
    durations.length = pIter → pIter ≤ s.ns.toNat → s.ns.toNat + pIter < 2 ^ 64 →
    ∃ t cs, hostRun durations s = some (t, cs) ∧ cs.length = 256 * 1000)

/-- R189: the HARV records of a sequence of samples depend on the parameters and the harvester's state alone. -/
def Obligations.SampleRecordsAreDetermined : Prop :=
  ∀ (durations : List Word64) (s1 s2 : State), s1.params = s2.params → s1.sameHarvester s2 →
    ∃ t1 t2 rs, runInstrs (durations.map .smpl) s1 = .next t1 ∧
      runInstrs (durations.map .smpl) s2 = .next t2 ∧ t1.sameHarvester t2 ∧
      t1.out = s1.out ++ rs ∧ t2.out = s2.out ++ rs

/-! ## Errors (60_exceptions.md) and rules of the whole machine -/

/-- R211: raising an error sets ERR, writes CAUSE only when ERR was 0, and changes nothing else. -/
def Obligations.RaiseKeepsTheFirstCause : Prop :=
  ∀ s : State, raiseError .reserved s = withError s 0b01#2 ∧
    raiseError .sampleOverflow s = withError s 0b10#2 ∧
    (s.err = true → withError s 0b01#2 = s ∧ withError s 0b10#2 = s)

/-- R210: the two errors come from exactly two situations, a reserved OP (CAUSE 0b01) and a SMPL with NS at
its last value (CAUSE 0b10); the word then has no effect but to record the error, and in every other
situation ERR and CAUSE are unchanged. -/
def Obligations.ErrorsComeFromExactlyTwoSituations : Prop :=
  ∀ (w : CmdWord) (s t : State), performWord w s = .next t →
    (reservedOp s.params.harvester (opField w) → t = withError s 0b01#2) ∧
    (opField w = 0x20#8 → s.params.harvester = .present → s.ns = BitVec.allOnes 64 →
      t = withError s 0b10#2) ∧
    (¬ reservedOp s.params.harvester (opField w) →
      ¬ (opField w = 0x20#8 ∧ s.params.harvester = .present ∧ s.ns = BitVec.allOnes 64) →
      t.sameErrors s)

/-- R29, R30, R212: no command word clears ERR or changes CAUSE once it is set, and with ERR = 1 the engine goes
on performing words: what it does to everything but ERR and CAUSE is what it does with ERR = 0. -/
def Obligations.ErrorIsStickyAndTheEngineGoesOn : Prop :=
  ∀ (w : CmdWord) (s t : State), performWord w s = .next t →
    (s.err = true → t.err = true ∧ t.cause = s.cause) ∧
    ∀ (e : Bool) (c : BitVec 2), ∃ u, performWord w { s with err := e, cause := c } = .next u ∧
      { u with err := t.err, cause := t.cause } = t

/-- R32, R61: a word appends at most one record to OUT and changes no record that is there; only DIGEST makes a
HOST record and only SMPL a HARV record. -/
def Obligations.WordsAppendAtMostOneRecord : Prop :=
  ∀ (w : CmdWord) (s t : State), performWord w s = .next t →
    t.out = s.out ∨
    (∃ d, opField w = 0x02#8 ∧ t.out = s.out ++ [{ src := .host, data := d }]) ∨
    (∃ d, opField w = 0x20#8 ∧ t.out = s.out ++ [{ src := .harv, data := d }])

/-- The invariant holds at reset, of every block R7 allows. -/
def Obligations.InvariantHoldsAtReset : Prop :=
  State.reset.Inv ∧ ∀ p : Params, p.wf = true → (State.resetWith p).Inv

/-- R7, R29, R30, R33, R34, R35, R183, R186: every step keeps the invariant. -/
def Obligations.StepKeepsTheInvariant : Prop :=
  ∀ s t : State, s.Inv → step s = .next t → t.Inv

/-! ## Ports (70_reset_and_hazards.md) -/

/-- R235, R237, R238: an idle engine that is given a word, by a host that keeps R234, stays busy for the word's
cycles of the table; then, if the command-level machine makes no record, it is idle in the state that
machine gives; if it makes one, it presents that record until the host takes it, R edges later, and is
then idle in that state. That the old state stays visible until the last effect or the transfer is the
model's choice (log 9). -/
def Obligations.PortRunPerformsTheCommand : Prop :=
  ∀ (e : Engine) (first : PortIn) (ins : List PortIn) (t : State),
    e.wasReset = true → e.phase = .idle → first.rst = false → first.cmdValid = true →
    holdsWord e first = true → performWord first.cmd e.arch = .next t → HostKeeps none ins →
    ins.length = tableCycles first.cmd e.arch →
    (∀ m, m < ins.length → ∃ em, edges (first :: ins.take m) e = .next em ∧
      em.busy = true ∧ em.arch = e.arch) ∧
    ∃ e', edges (first :: ins) e = .next e' ∧ e'.wasReset = true ∧
      (t.out = e.arch.out → e'.phase = .idle ∧ e'.arch = t) ∧
      (∀ r, t.out = e.arch.out ++ [r] → ∀ (waits : List PortIn) (last : PortIn),
        HostKeeps e'.hold (waits ++ [last]) → (∀ i ∈ waits, i.resReady = false) →
        last.resReady = true →
        (∀ m, m ≤ waits.length → ∃ em, edges (first :: ins ++ waits.take m) e = .next em ∧
          em.phase = .presenting r t ∧ em.arch = e.arch) ∧
        ∃ e'', edges (first :: ins ++ waits ++ [last]) e = .next e'' ∧
          e''.phase = .idle ∧ e''.arch = t)

/-- R234, R237: a presented record stays on the port, with `cmd_ready` 0, until the host takes it, and the edge on
which it does frees the engine. That the command's effects become visible at that edge, and not before,
is the model's choice (log 9). -/
def Obligations.RecordWaitsForTheHost : Prop :=
  ∀ (e : Engine) (i : PortIn) (r : Record) (after : State),
    e.wasReset = true → e.phase = .presenting r after → i.rst = false → holdsWord e i = true →
    (∃ o, outputs false e = .next o ∧ o.resValid = true ∧ o.resSrc = sourceBit r.src ∧
      o.resData = r.data ∧ o.cmdReady = false) ∧
    ∃ e', edge i e = .next e' ∧
      (i.resReady = false → e'.phase = .presenting r after ∧ e'.arch = e.arch) ∧
      (i.resReady = true → e'.phase = .idle ∧ e'.arch = after)

/-- R235: a busy engine drives BUSY = 1 and `cmd_ready` = 0, and what the host puts on `cmd` has no effect on
where the engine goes. -/
def Obligations.BusyEngineTakesNoWord : Prop :=
  ∀ (e : Engine) (i1 i2 : PortIn), e.wasReset = true → e.busy = true →
    i1.rst = false → i2.rst = false → i1.resReady = i2.resReady →
    holdsWord e i1 = true → holdsWord e i2 = true →
    (∃ o, outputs false e = .next o ∧ o.cmdReady = false ∧ o.status.extractLsb' 0 1 = 1#1) ∧
    ∃ e1 e2, edge i1 e = .next e1 ∧ edge i2 e = .next e2 ∧ e1.phase = e2.phase ∧ e1.arch = e2.arch

/-- R61, R237: what the engine owes the host is kept by every edge, and OUT grows only on the edge that
transfers the presented record, by exactly that record. None is lost: without a reset an accepted
command's record is owed from its acceptance on, is presented at the last edge of its work, waits while
the host does not take it, and is in OUT after the edge on which the host does. That a record on its way
stands in the phase, and enters OUT at its transfer, is the model's form (log 9). -/
def Obligations.RecordsAreDeliveredOnce : Prop :=
  ∀ (e e' : Engine) (i : PortIn), Owes e → edge i e = .next e' →
    Owes e' ∧
    (i.rst = false →
      (e'.arch.out = e.arch.out ∨
        ∃ r after, e.phase = .presenting r after ∧ i.resReady = true ∧
          e'.arch.out = e.arch.out ++ [r]) ∧
      (e.phase = .idle → i.cmdValid = true →
        ∃ left t, e'.phase = .working left t ∧ performWord i.cmd e.arch = .next t) ∧
      (∀ left after, e.phase = .working left after → 1 < left →
        e'.phase = .working (left - 1) after) ∧
      (∀ left after, e.phase = .working left after → left ≤ 1 →
        (after.out = e.arch.out → e'.phase = .idle) ∧
        ∀ r, after.out = e.arch.out ++ [r] → e'.phase = .presenting r after) ∧
      (∀ r after, e.phase = .presenting r after →
        (i.resReady = false → e'.phase = .presenting r after) ∧
        (i.resReady = true → e'.phase = .idle ∧ e'.arch.out = e.arch.out ++ [r])))

/-- R230, R231: an edge with `rst = 1` gives every piece of state its reset value, whatever command was in
flight, and while `rst = 1` both `cmd_ready` and `res_valid` are 0, on a block never reset too. -/
def Obligations.ResetEdgeAbandonsTheCommand : Prop :=
  (∀ (e : Engine) (i : PortIn), i.rst = true →
    ∃ e', edge i e = .next e' ∧ e'.phase = .idle ∧ e'.wasReset = true ∧ e'.arch.atCtx0 ∧
      e'.arch.err = false ∧ e'.arch.cause = 0b00#2 ∧ e'.arch.win = [] ∧ e'.arch.ns = 0#64 ∧
      e'.arch.sum = 0 ∧ e'.arch.out = []) ∧
  (∀ (e : Engine) (i : PortIn) (p : Phase), i.rst = true → edge i { e with phase := p } = edge i e) ∧
  (∀ (e : Engine), ∃ o, outputs true e = .next o ∧ o.cmdReady = false ∧ o.resValid = false)

/-- The model's choice (log 5, log 9): a reset edge keeps the block's parameters and what the inbox holds, and
forgets the word the host was holding, on which its result does not depend. -/
def Obligations.ResetEdgeForgetsTheHeldWord : Prop :=
  ∀ (e : Engine) (i : PortIn), i.rst = true →
    (∀ held : Option CmdWord, edge i { e with hold := held } = edge i e) ∧
    ∃ e', edge i e = .next e' ∧ e'.hold = none ∧ e'.arch.params = e.arch.params ∧
      e'.arch.inbox = e.arch.inbox

/-- R239: with a host that takes records at once, whatever words it presents and holds meanwhile (R234), a busy
engine is idle again, in the final state of its command, within the cycles that command has left and one
more for the record; and an accepted word completes in exactly the cycles of R238 with R = 0. -/
def Obligations.AcceptedCommandsComplete : Prop :=
  (∀ (e : Engine) (ins : List PortIn), e.wasReset = true → HostKeeps e.hold ins →
    (∀ i ∈ ins, i.resReady = true) → edgesLeft e ≤ ins.length →
    ∃ n e', n ≤ edgesLeft e ∧ edges (ins.take n) e = .next e' ∧ e'.phase = .idle ∧
      e'.arch = finalState e) ∧
  (∀ (e : Engine) (first : PortIn) (ins : List PortIn) (t : State),
    e.wasReset = true → e.phase = .idle → first.rst = false → first.cmdValid = true →
    holdsWord e first = true → performWord first.cmd e.arch = .next t → HostKeeps none ins →
    (∀ i ∈ ins, i.resReady = true) →
    ins.length = tableCycles first.cmd e.arch + (t.out.length - e.arch.out.length) →
    ∃ e', edges (first :: ins) e = .next e' ∧ e'.phase = .idle ∧ e'.arch = t)

/-- The port-level form of the invariant: every edge keeps it, of the state the host sees and of the state the
command in flight ends in. -/
def Obligations.EdgeKeepsTheInvariant : Prop :=
  ∀ (e e' : Engine) (i : PortIn), PortInv e → edge i e = .next e' → PortInv e'

/-- R232, R234 and 93_implementation_defined.md (`refuse`): a block that was never reset has no model until an
edge with `rst = 1`, and a host that drops or changes the word it must hold has no move. -/
def Obligations.UnresetBlocksAndBrokenHandshakesAreRefused : Prop :=
  (∀ (e : Engine) (i : PortIn), e.wasReset = false → i.rst = false →
    edge i e = .refused .neverReset) ∧
  (∀ (e : Engine) (i : PortIn) (w : CmdWord), e.wasReset = true → e.hold = some w → i.rst = false →
    (i.cmdValid = false ∨ i.cmd ≠ w) → edge i e = .refused .handshakeBroken)

/-! ## Parameters (00_scope.md R7) -/

/-- 00_scope.md R7, 20_memory.md R58: P_DATAPATH and P_LAT_C are "timing only" and P_BASE is "not
architectural": a step of a block with other values of them does the same to everything else. Reset
states of two blocks differ in their parameters alone. -/
def Obligations.TimingParametersAndPlacementHaveNoEffect : Prop :=
  (∀ (s t : State) (dp : Datapath) (lat : Nat) (base : Option PortPlacement), step s = .next t →
    step { s with params := { s.params with datapath := dp, latC := lat, base := base } } =
      .next { t with params := { t.params with datapath := dp, latC := lat, base := base } }) ∧
  (∀ p : Params, State.resetWith p = { State.reset with params := p })

/-- 00_scope.md R3, R7: a block's P_DATAPATH, whichever of the legal ones it is, computes COMPRESS. -/
def Obligations.EveryLegalDatapathIsCompress : Prop :=
  ∀ (p : Params) (hv : HashWords) (blk : Block), p.wf = true →
    datapathCompress p.datapath hv blk = some (compress hv blk)

/-! ## Assembler (30_encoding.md) -/

/-- R75, R79: `NOP`, `RESET`, `DIGEST`, `UPD<n> <imm>` and `SMPL <simm>` with an immediate in range give one
word, the command's own, with OP and DATA as R79 gives them, so 0 in every ignored bit; it decodes to a
command with exactly that operand. `.cw` gives the word of any OP and DATA. An immediate out of range is
refused. -/
def Obligations.AssemblerEncodesOrRefuses : Prop :=
  (assembleLine .nop = some [encode .nop] ∧ encode .nop = 0x000000000000000000#72 ∧
    assembleLine .reset = some [encode .reset] ∧ encode .reset = 0x010000000000000000#72 ∧
    assembleLine .digest = some [encode .digest] ∧ encode .digest = 0x020000000000000000#72) ∧
  (∀ (n imm : Nat), 1 ≤ n → n ≤ 8 → imm < 2 ^ (8 * n) →
    ∃ w i, assembleLine (.upd n imm) = some [w] ∧ w = encode i ∧ (∀ hv, decode hv w = .command i) ∧
      opField w = BitVec.ofNat 8 (0x0F + n) ∧ (dataField w).toNat = imm ∧
      (messageBytes i).length = n ∧ bigEndian (messageBytes i) = imm) ∧
  (∀ (n imm : Nat), n = 0 ∨ 8 < n ∨ 2 ^ (8 * n) ≤ imm → assembleLine (.upd n imm) = none) ∧
  (∀ d : Int, -(2 ^ 63) ≤ d → d < 2 ^ 63 →
    ∃ w data, assembleLine (.smpl d) = some [w] ∧ w = encode (.smpl data) ∧
      decode .present w = .command (.smpl data) ∧ opField w = 0x20#8 ∧
      ((dataField w).toNat : Int) = d % 2 ^ 64 ∧ sint64 data = d) ∧
  (∀ d : Int, d < -(2 ^ 63) ∨ 2 ^ 63 ≤ d → assembleLine (.smpl d) = none) ∧
  (∀ op data : Nat, op < 256 → data < 2 ^ 64 →
    ∃ w, assembleLine (.cw op data) = some [w] ∧ (opField w).toNat = op ∧
      (dataField w).toNat = data) ∧
  (∀ op data : Nat, 256 ≤ op ∨ 2 ^ 64 ≤ data → assembleLine (.cw op data) = none)
end

