-- ==== Sys2Proof/Laws/State.lean ====
section
/-! SUPPORT. What each named update of the state does to each field, true by unfolding the update once. -/

namespace Sys2Proof.Machine

@[simp] theorem resetWith_params (p : Params) : (State.resetWith p).params = p := rfl
@[simp] theorem resetWith_free (p : Params) : (State.resetWith p).free = 0 := rfl
@[simp] theorem resetWith_fill (p : Params) : (State.resetWith p).fill = 0 := rfl
@[simp] theorem resetWith_err (p : Params) : (State.resetWith p).err = false := rfl
@[simp] theorem resetWith_cause (p : Params) : (State.resetWith p).cause = 0#2 := rfl
@[simp] theorem resetWith_bitcnt (p : Params) : (State.resetWith p).bitcnt = 0#64 := rfl
@[simp] theorem resetWith_ns (p : Params) : (State.resetWith p).ns = 0#64 := rfl
@[simp] theorem resetWith_sum (p : Params) : (State.resetWith p).sum = 0 := rfl
@[simp] theorem resetWith_inbox (p : Params) : (State.resetWith p).inbox = [] := rfl
@[simp] theorem resetWith_win (p : Params) : (State.resetWith p).win = [] := rfl
@[simp] theorem resetWith_out (p : Params) : (State.resetWith p).out = [] := rfl
@[simp] theorem resetWith_h (p : Params) : (State.resetWith p).h = iv := rfl
@[simp] theorem resetWith_buf (p : Params) : (State.resetWith p).buf = Vector.replicate 64 0x00#8 := rfl

theorem reset_eq_resetWith : State.reset = State.resetWith Params.default := rfl

@[simp] theorem emit_params (src : Source) (v : DigestWord) (s : State) : (emit src v s).params = s.params := rfl
@[simp] theorem emit_h (src : Source) (v : DigestWord) (s : State) : (emit src v s).h = s.h := rfl
@[simp] theorem emit_buf (src : Source) (v : DigestWord) (s : State) : (emit src v s).buf = s.buf := rfl
@[simp] theorem emit_fill (src : Source) (v : DigestWord) (s : State) : (emit src v s).fill = s.fill := rfl
@[simp] theorem emit_bitcnt (src : Source) (v : DigestWord) (s : State) : (emit src v s).bitcnt = s.bitcnt := rfl
@[simp] theorem emit_err (src : Source) (v : DigestWord) (s : State) : (emit src v s).err = s.err := rfl
@[simp] theorem emit_cause (src : Source) (v : DigestWord) (s : State) : (emit src v s).cause = s.cause := rfl
@[simp] theorem emit_win (src : Source) (v : DigestWord) (s : State) : (emit src v s).win = s.win := rfl
@[simp] theorem emit_ns (src : Source) (v : DigestWord) (s : State) : (emit src v s).ns = s.ns := rfl
@[simp] theorem emit_sum (src : Source) (v : DigestWord) (s : State) : (emit src v s).sum = s.sum := rfl
@[simp] theorem emit_out (src : Source) (v : DigestWord) (s : State) : (emit src v s).out = s.out ++ [{ src := src, data := v }] := rfl
@[simp] theorem emit_inbox (src : Source) (v : DigestWord) (s : State) : (emit src v s).inbox = s.inbox := rfl
@[simp] theorem emit_free (src : Source) (v : DigestWord) (s : State) : (emit src v s).free = s.free := rfl

@[simp] theorem forgetBuffer_params (s : State) : (forgetBuffer s).params = s.params := rfl
@[simp] theorem forgetBuffer_h (s : State) : (forgetBuffer s).h = s.h := rfl
@[simp] theorem forgetBuffer_buf (s : State) : (forgetBuffer s).buf = freeBlock s.free := rfl
@[simp] theorem forgetBuffer_fill (s : State) : (forgetBuffer s).fill = s.fill := rfl
@[simp] theorem forgetBuffer_bitcnt (s : State) : (forgetBuffer s).bitcnt = s.bitcnt := rfl
@[simp] theorem forgetBuffer_err (s : State) : (forgetBuffer s).err = s.err := rfl
@[simp] theorem forgetBuffer_cause (s : State) : (forgetBuffer s).cause = s.cause := rfl
@[simp] theorem forgetBuffer_win (s : State) : (forgetBuffer s).win = s.win := rfl
@[simp] theorem forgetBuffer_ns (s : State) : (forgetBuffer s).ns = s.ns := rfl
@[simp] theorem forgetBuffer_sum (s : State) : (forgetBuffer s).sum = s.sum := rfl
@[simp] theorem forgetBuffer_out (s : State) : (forgetBuffer s).out = s.out := rfl
@[simp] theorem forgetBuffer_inbox (s : State) : (forgetBuffer s).inbox = s.inbox := rfl
@[simp] theorem forgetBuffer_free (s : State) : (forgetBuffer s).free = s.free + 1 := rfl

@[simp] theorem resetContext_params (s : State) : (resetContext s).params = s.params := rfl
@[simp] theorem resetContext_h (s : State) : (resetContext s).h = iv := rfl
@[simp] theorem resetContext_buf (s : State) : (resetContext s).buf = freeBlock s.free := rfl
@[simp] theorem resetContext_fill (s : State) : (resetContext s).fill = 0 := rfl
@[simp] theorem resetContext_bitcnt (s : State) : (resetContext s).bitcnt = 0#64 := rfl
@[simp] theorem resetContext_err (s : State) : (resetContext s).err = s.err := rfl
@[simp] theorem resetContext_cause (s : State) : (resetContext s).cause = s.cause := rfl
@[simp] theorem resetContext_win (s : State) : (resetContext s).win = s.win := rfl
@[simp] theorem resetContext_ns (s : State) : (resetContext s).ns = s.ns := rfl
@[simp] theorem resetContext_sum (s : State) : (resetContext s).sum = s.sum := rfl
@[simp] theorem resetContext_out (s : State) : (resetContext s).out = s.out := rfl
@[simp] theorem resetContext_inbox (s : State) : (resetContext s).inbox = s.inbox := rfl
@[simp] theorem resetContext_free (s : State) : (resetContext s).free = s.free + 1 := rfl

@[simp] theorem systemReset_params (s : State) : (systemReset s).params = s.params := rfl
@[simp] theorem systemReset_h (s : State) : (systemReset s).h = iv := rfl
@[simp] theorem systemReset_buf (s : State) : (systemReset s).buf = freeBlock s.free := rfl
@[simp] theorem systemReset_fill (s : State) : (systemReset s).fill = 0 := rfl
@[simp] theorem systemReset_bitcnt (s : State) : (systemReset s).bitcnt = 0#64 := rfl
@[simp] theorem systemReset_err (s : State) : (systemReset s).err = false := rfl
@[simp] theorem systemReset_cause (s : State) : (systemReset s).cause = 0#2 := rfl
@[simp] theorem systemReset_win (s : State) : (systemReset s).win = [] := rfl
@[simp] theorem systemReset_ns (s : State) : (systemReset s).ns = 0#64 := rfl
@[simp] theorem systemReset_sum (s : State) : (systemReset s).sum = 0 := rfl
@[simp] theorem systemReset_out (s : State) : (systemReset s).out = [] := rfl
@[simp] theorem systemReset_inbox (s : State) : (systemReset s).inbox = s.inbox := rfl
@[simp] theorem systemReset_free (s : State) : (systemReset s).free = s.free + 1 := rfl

@[simp] theorem presentWord_params (w : CmdWord) (s : State) : (presentWord w s).params = s.params := rfl
@[simp] theorem presentWord_h (w : CmdWord) (s : State) : (presentWord w s).h = s.h := rfl
@[simp] theorem presentWord_buf (w : CmdWord) (s : State) : (presentWord w s).buf = s.buf := rfl
@[simp] theorem presentWord_fill (w : CmdWord) (s : State) : (presentWord w s).fill = s.fill := rfl
@[simp] theorem presentWord_bitcnt (w : CmdWord) (s : State) : (presentWord w s).bitcnt = s.bitcnt := rfl
@[simp] theorem presentWord_err (w : CmdWord) (s : State) : (presentWord w s).err = s.err := rfl
@[simp] theorem presentWord_cause (w : CmdWord) (s : State) : (presentWord w s).cause = s.cause := rfl
@[simp] theorem presentWord_win (w : CmdWord) (s : State) : (presentWord w s).win = s.win := rfl
@[simp] theorem presentWord_ns (w : CmdWord) (s : State) : (presentWord w s).ns = s.ns := rfl
@[simp] theorem presentWord_sum (w : CmdWord) (s : State) : (presentWord w s).sum = s.sum := rfl
@[simp] theorem presentWord_out (w : CmdWord) (s : State) : (presentWord w s).out = s.out := rfl
@[simp] theorem presentWord_inbox (w : CmdWord) (s : State) : (presentWord w s).inbox = .command w :: s.inbox := rfl
@[simp] theorem presentWord_free (w : CmdWord) (s : State) : (presentWord w s).free = s.free := rfl

/-- The fetch word changes nothing but what the host presents. -/
theorem withFetchWord_eq (s : State) (nbits w : Nat) :
    s.withFetchWord nbits w = { s with inbox := .command (tableWord nbits w) :: s.inbox } := rfl

end Sys2Proof.Machine
end

