-- ==== Sys2Proof/Laws/Ops.lean ====
section
/-! SUPPORT. For each shared operation, once, everything it can do. -/

namespace Sys2Proof.Machine

/-! ## Recording an error -/

theorem raiseError_of_err (e : ErrorCause) (s : State) (h : s.err = true) : raiseError e s = s := by
  simp [raiseError, h]

theorem raiseError_of_not_err (e : ErrorCause) (s : State) (h : s.err = false) :
    raiseError e s = { s with err := true, cause := causeCode e } := by
  simp [raiseError, h]

/-- An error writes ERR and CAUSE and nothing else, and keeps the first cause (R211). -/
theorem raiseError_eq (e : ErrorCause) (s : State) :
    raiseError e s = { s with err := true, cause := if s.err then s.cause else causeCode e } := by
  unfold raiseError
  split
  · next h => cases s; simp_all
  · simp

@[simp] theorem raiseError_err (e : ErrorCause) (s : State) : (raiseError e s).err = true := by
  rw [raiseError_eq]

@[simp] theorem raiseError_cause (e : ErrorCause) (s : State) :
    (raiseError e s).cause = if s.err then s.cause else causeCode e := by rw [raiseError_eq]

@[simp] theorem raiseError_params (e : ErrorCause) (s : State) : (raiseError e s).params = s.params := by
  rw [raiseError_eq]

@[simp] theorem raiseError_h (e : ErrorCause) (s : State) : (raiseError e s).h = s.h := by
  rw [raiseError_eq]

@[simp] theorem raiseError_buf (e : ErrorCause) (s : State) : (raiseError e s).buf = s.buf := by
  rw [raiseError_eq]

@[simp] theorem raiseError_fill (e : ErrorCause) (s : State) : (raiseError e s).fill = s.fill := by
  rw [raiseError_eq]

@[simp] theorem raiseError_bitcnt (e : ErrorCause) (s : State) : (raiseError e s).bitcnt = s.bitcnt := by
  rw [raiseError_eq]

@[simp] theorem raiseError_win (e : ErrorCause) (s : State) : (raiseError e s).win = s.win := by
  rw [raiseError_eq]

@[simp] theorem raiseError_ns (e : ErrorCause) (s : State) : (raiseError e s).ns = s.ns := by
  rw [raiseError_eq]

@[simp] theorem raiseError_sum (e : ErrorCause) (s : State) : (raiseError e s).sum = s.sum := by
  rw [raiseError_eq]

@[simp] theorem raiseError_out (e : ErrorCause) (s : State) : (raiseError e s).out = s.out := by
  rw [raiseError_eq]

@[simp] theorem raiseError_inbox (e : ErrorCause) (s : State) : (raiseError e s).inbox = s.inbox := by
  rw [raiseError_eq]

@[simp] theorem raiseError_free (e : ErrorCause) (s : State) : (raiseError e s).free = s.free := by
  rw [raiseError_eq]

/-! ## Absorbing bytes -/

/-- A byte that leaves the block incomplete is stored at FILL (R142). -/
theorem absorb_of_lt (v : Byte) (s : State) (h : s.fill.val + 1 < 64) :
    absorb v s = { s with buf := s.buf.set s.fill.val v, fill := ⟨s.fill.val + 1, h⟩ } := by
  simp [absorb, h]

/-- The byte that completes the block starts a compression (R142). -/
theorem absorb_of_full (v : Byte) (s : State) (h : ¬ s.fill.val + 1 < 64) :
    absorb v s = forgetBuffer
      { s with h := compress s.h (s.buf.set s.fill.val v), bitcnt := s.bitcnt + 512#64, fill := 0 } := by
  simp [absorb, h]

/-- The byte that completes the block leaves FILL at 0 (R142). -/
theorem absorb_fill_of_full (v : Byte) (s : State) (h : ¬ s.fill.val + 1 < 64) :
    (absorb v s).fill = 0 := by
  rw [absorb_of_full v s h, forgetBuffer_fill]

theorem absorb_fill_val_of_full (v : Byte) (s : State) (h : ¬ s.fill.val + 1 < 64) :
    (absorb v s).fill.val = 0 := by
  rw [absorb_fill_of_full v s h]; rfl

theorem absorb_fill_val_of_lt (v : Byte) (s : State) (h : s.fill.val + 1 < 64) :
    (absorb v s).fill.val = (s.fill.val + 1) % 64 := by
  rw [absorb_of_lt v s h, Nat.mod_eq_of_lt h]

theorem absorb_fill_val_of_wrap (v : Byte) (s : State) (h : ¬ s.fill.val + 1 < 64) :
    (absorb v s).fill.val = (s.fill.val + 1) % 64 := by
  have hf : s.fill.val + 1 = 64 := Nat.le_antisymm s.fill.isLt (Nat.le_of_not_lt h)
  rw [absorb_fill_val_of_full v s h, hf]

/-- FILL counts bytes modulo the block. -/
theorem absorb_fill_val (v : Byte) (s : State) : (absorb v s).fill.val = (s.fill.val + 1) % 64 := by
  by_cases h : s.fill.val + 1 < 64
  · exact absorb_fill_val_of_lt v s h
  · exact absorb_fill_val_of_wrap v s h

/-! What absorbing a byte never touches: the parameters, the errors, the harvester, OUT and the inbox. -/

@[simp] theorem absorb_params (v : Byte) (s : State) : (absorb v s).params = s.params := by
  unfold absorb
  split <;> rfl

@[simp] theorem absorb_err (v : Byte) (s : State) : (absorb v s).err = s.err := by
  unfold absorb
  split <;> rfl

@[simp] theorem absorb_cause (v : Byte) (s : State) : (absorb v s).cause = s.cause := by
  unfold absorb
  split <;> rfl

@[simp] theorem absorb_win (v : Byte) (s : State) : (absorb v s).win = s.win := by
  unfold absorb
  split <;> rfl

@[simp] theorem absorb_ns (v : Byte) (s : State) : (absorb v s).ns = s.ns := by
  unfold absorb
  split <;> rfl

@[simp] theorem absorb_sum (v : Byte) (s : State) : (absorb v s).sum = s.sum := by
  unfold absorb
  split <;> rfl

@[simp] theorem absorb_out (v : Byte) (s : State) : (absorb v s).out = s.out := by
  unfold absorb
  split <;> rfl

@[simp] theorem absorb_inbox (v : Byte) (s : State) : (absorb v s).inbox = s.inbox := by
  unfold absorb
  split <;> rfl

@[simp] theorem absorbAll_nil (s : State) : absorbAll [] s = s := rfl

@[simp] theorem absorbAll_cons (v : Byte) (rest : List Byte) (s : State) :
    absorbAll (v :: rest) s = absorbAll rest (absorb v s) := rfl

theorem absorbAll_append (xs ys : List Byte) (s : State) :
    absorbAll (xs ++ ys) s = absorbAll ys (absorbAll xs s) := by
  simp [absorbAll, List.foldl_append]

/-- What absorbing bytes never touches. -/
theorem absorbAll_frame (bytes : List Byte) (s : State) :
    (absorbAll bytes s).params = s.params ∧ (absorbAll bytes s).err = s.err ∧
    (absorbAll bytes s).cause = s.cause ∧ (absorbAll bytes s).win = s.win ∧
    (absorbAll bytes s).ns = s.ns ∧ (absorbAll bytes s).sum = s.sum ∧
    (absorbAll bytes s).out = s.out ∧ (absorbAll bytes s).inbox = s.inbox := by
  induction bytes generalizing s with
  | nil => simp
  | cons v rest ih =>
    obtain ⟨h1, h2, h3, h4, h5, h6, h7, h8⟩ := ih (absorb v s)
    exact ⟨h1.trans (absorb_params v s), h2.trans (absorb_err v s), h3.trans (absorb_cause v s),
      h4.trans (absorb_win v s), h5.trans (absorb_ns v s), h6.trans (absorb_sum v s),
      h7.trans (absorb_out v s), h8.trans (absorb_inbox v s)⟩

theorem absorbAll_fill_val (bytes : List Byte) (s : State) :
    (absorbAll bytes s).fill.val = (s.fill.val + bytes.length) % 64 := by
  induction bytes generalizing s with
  | nil => have := s.fill.isLt; simp only [absorbAll_nil, List.length_nil]; omega
  | cons v rest ih =>
    simp only [absorbAll_cons, ih, absorb_fill_val, List.length_cons]; omega

/-! ## Reading back what the block-wide writes leave -/

theorem getElem_zeroRange (lo hi : Nat) (blk : Block) (j : Nat) (hj : j < 64) :
    (zeroRange lo hi blk)[j] = if lo ≤ j ∧ j < hi then 0x00#8 else blk[j] := by
  simp [zeroRange]

theorem getElem_putLength (len : Word64) (blk : Block) (j : Nat) (hj : j < 64) :
    (putLength len blk)[j] = if 56 ≤ j then len.extractLsb' (8 * (63 - j)) 8 else blk[j] := by
  simp [putLength]

theorem getElem_pack (win : List Bool) (j : Nat) (hj : j < 64) : (pack win)[j] = packByte win j := by
  simp [pack]

/-! ## The window -/

/-- A push makes the window one bit longer, unless it was full (R183). -/
theorem pushBit_length (win : List Bool) (bit : Bool) :
    (pushBit win bit).length = if win.length = winCapacity then winCapacity else win.length + 1 := by
  unfold pushBit
  split
  · next h => simp [h, winCapacity]
  · simp

/-! ## Taking a sample -/

theorem takeSample_of_overflow (d : Int) (s : State) (h : s.ns = BitVec.allOnes 64) :
    takeSample d s = raiseError .sampleOverflow s := by
  simp [takeSample, h]

/-- A sample that raises no error: the new window, and a record exactly when it is full (R181). -/
theorem takeSample_of_ne (d : Int) (s : State) (h : s.ns ≠ BitVec.allOnes 64) :
    ∃ win, win = pushBit s.win (meanBit s.params.meanCmp d (s.ns + 1#64).toNat (s.sum + d)) ∧
      takeSample d s =
        { s with
          ns := s.ns + 1#64
          sum := s.sum + d
          win := win
          out := s.out ++ (if win.length = winCapacity
            then [{ src := .harv, data := sha256 (pack win).toList }] else []) } := by
  refine ⟨_, rfl, ?_⟩
  simp only [takeSample, h, if_false]
  split <;> simp [emit]

/-- What a sample never touches: the parameters, the hash context and the inbox. -/
theorem takeSample_frame (d : Int) (s : State) :
    (takeSample d s).params = s.params ∧ (takeSample d s).h = s.h ∧ (takeSample d s).buf = s.buf ∧
    (takeSample d s).fill = s.fill ∧ (takeSample d s).bitcnt = s.bitcnt ∧
    (takeSample d s).inbox = s.inbox ∧ (takeSample d s).free = s.free := by
  by_cases h : s.ns = BitVec.allOnes 64
  · rw [takeSample_of_overflow d s h]; simp
  · obtain ⟨win, -, hw⟩ := takeSample_of_ne d s h
    rw [hw]; simp

/-! ## Commands and steps answer a next state -/

/-- Every command answers a next state (60_exceptions.md R212). -/
theorem exec_next (i : Instr) (s : State) : ∃ t, exec i s = .next t := by
  cases i with
  | smpl d =>
    cases hp : s.params.harvester with
    | present => exact ⟨_, by simp [exec, execSmpl, hp]; rfl⟩
    | absent => exact ⟨_, by simp [exec, execSmpl, hp]; rfl⟩
  | _ => exact ⟨_, rfl⟩

theorem performWord_next (w : CmdWord) (s : State) : ∃ t, performWord w s = .next t := by
  unfold performWord
  split
  · exact exec_next _ _
  · exact ⟨_, rfl⟩

theorem step_next (s : State) : ∃ t, step s = .next t := by
  unfold step takeInput
  split
  · exact ⟨_, rfl⟩
  · exact ⟨_, rfl⟩
  · exact performWord_next _ _

/-- Everything one step can do: stay idle, take a system reset, or perform a word. -/
theorem step_cases (s t : State) (h : step s = .next t) :
    (s.inbox = [] ∧ t = s) ∨
    (∃ rest, s.inbox = .systemReset :: rest ∧ t = systemReset { s with inbox := rest }) ∨
    (∃ w rest, s.inbox = .command w :: rest ∧ performWord w { s with inbox := rest } = .next t) := by
  unfold step takeInput at h
  split at h
  · next he => exact .inl ⟨he, (Host.Outcome.next.inj h).symm⟩
  · next rest he => exact .inr (.inl ⟨rest, he, (Host.Outcome.next.inj h).symm⟩)
  · next w rest he => exact .inr (.inr ⟨w, rest, he, h⟩)

/-- Everything one command word can do. -/
theorem performWord_cases (w : CmdWord) (s t : State) (h : performWord w s = .next t) :
    (∃ i, decode s.params.harvester w = .command i ∧ exec i s = .next t) ∨
    (∃ op, decode s.params.harvester w = .reserved op ∧ t = raiseError .reserved s) := by
  unfold performWord at h
  split at h
  · next i hd => exact .inl ⟨i, hd, h⟩
  · next op hd => exact .inr ⟨op, hd, (Host.Outcome.next.inj h).symm⟩

end Sys2Proof.Machine
end

