-- ==== Sys2Proof/Laws/Words.lean ====
section
/-! SUPPORT. Small lemmas of the encoding fields, the operand bytes and the schedule. -/

namespace Sys2Proof

/-- The bits of a command word: DATA below bit 64, OP from bit 64 on. -/
theorem getLsbD_rawWord (op : BitVec 8) (data : Word64) (i : Nat) :
    (rawWord op data).getLsbD i = if i < 64 then data.getLsbD i else op.getLsbD (i - 64) :=
  (BitVec.getLsbD_append (x := op) (y := data) (i := i)).trans (by split <;> simp_all)

@[simp] theorem opField_rawWord (op : BitVec 8) (data : Word64) : opField (rawWord op data) = op := by
  unfold opField
  ext i hi
  rw [BitVec.getElem_extractLsb', getLsbD_rawWord]
  simp [BitVec.getLsbD_eq_getElem hi]

@[simp] theorem dataField_rawWord (op : BitVec 8) (data : Word64) : dataField (rawWord op data) = data := by
  unfold dataField
  ext i hi
  rw [BitVec.getElem_extractLsb', getLsbD_rawWord]
  simp [hi, BitVec.getLsbD_eq_getElem]

@[simp] theorem opField_encode (i : Instr) : opField (encode i) = i.opcode := opField_rawWord _ _

@[simp] theorem dataField_encode (i : Instr) : dataField (encode i) = i.operand := dataField_rawWord _ _

namespace Machine

@[simp] theorem updBytes_length {w : Nat} (n : Nat) (imm : BitVec w) : (updBytes n imm).length = n := by
  simp [updBytes]

@[simp] theorem be64bytes_length (v : Word64) : (be64bytes v).length = 8 := by
  simp [be64bytes]

@[simp] theorem firstWords_length (blk : Block) : (firstWords blk).length = 16 := by
  simp [firstWords]

theorem extendSchedule_length (n : Nat) (ws : List Word) :
    (extendSchedule n ws).length = ws.length + n := by
  induction n generalizing ws with
  | zero => rfl
  | succ n ih => simp only [extendSchedule, ih, List.length_append, List.length_singleton]; omega

@[simp] theorem schedule_length (blk : Block) : (schedule blk).length = 64 := by
  simp [schedule, extendSchedule_length]

/-- Extending a schedule keeps the words it has. -/
theorem extendSchedule_getD_of_lt (n : Nat) (ws : List Word) (t : Nat) (h : t < ws.length) :
    (extendSchedule n ws).getD t 0 = ws.getD t 0 := by
  induction n generalizing ws with
  | zero => rfl
  | succ n ih =>
    rw [extendSchedule, ih _ (by simp; omega)]
    simp [List.getElem?_append_left h]

@[simp] theorem getElem_blockAt (bytes : List Byte) (i j : Nat) (hj : j < 64) :
    (blockAt bytes i)[j] = bytes.getD (64 * i + j) 0 := by
  simp [blockAt]

end Machine

end Sys2Proof
end

