-- ==== Sys2Proof/Laws/PerInstr.lean ====
section
/-! SUPPORT. Statements made per instruction. -/

/-- The fields of a command's own word are its opcode and its operand (30_encoding.md R70, R72), and the word's
row of the opcode table is the command's. -/
def Sys2Proof.Laws.EncodedFields.Statement (i : Sys2Proof.Instr) : Prop :=
  Sys2Proof.opField (Sys2Proof.encode i) = i.opcode ∧
  Sys2Proof.dataField (Sys2Proof.encode i) = i.operand

namespace Sys2Proof.Laws.EncodedFields

theorem nop : Statement .nop := ⟨opField_encode _, dataField_encode _⟩

theorem reset : Statement .reset := ⟨opField_encode _, dataField_encode _⟩

theorem digest : Statement .digest := ⟨opField_encode _, dataField_encode _⟩

theorem upd1 (imm : BitVec 8) : Statement (.upd1 imm) := ⟨opField_encode _, dataField_encode _⟩

theorem upd2 (imm : BitVec 16) : Statement (.upd2 imm) := ⟨opField_encode _, dataField_encode _⟩

theorem upd3 (imm : BitVec 24) : Statement (.upd3 imm) := ⟨opField_encode _, dataField_encode _⟩

theorem upd4 (imm : BitVec 32) : Statement (.upd4 imm) := ⟨opField_encode _, dataField_encode _⟩

theorem upd5 (imm : BitVec 40) : Statement (.upd5 imm) := ⟨opField_encode _, dataField_encode _⟩

theorem upd6 (imm : BitVec 48) : Statement (.upd6 imm) := ⟨opField_encode _, dataField_encode _⟩

theorem upd7 (imm : BitVec 56) : Statement (.upd7 imm) := ⟨opField_encode _, dataField_encode _⟩

theorem upd8 (imm : BitVec 64) : Statement (.upd8 imm) := ⟨opField_encode _, dataField_encode _⟩

theorem smpl (data : Word64) : Statement (.smpl data) := ⟨opField_encode _, dataField_encode _⟩

end Sys2Proof.Laws.EncodedFields
end

