-- ==== Sys2Proof/Tests/Slice0.lean ====
section
/-! SUPPORT. Tests of one step each, with expected results from the vectors of spec/95_test_vectors.md and the
examples of the rules, and the witnesses that the statements' hypotheses can be met. -/

namespace Sys2Proof.Tests

open Sys2Proof.Machine Sys2Proof.Claims

/-- The outcome is a next state that passes the check. -/
def nextIs (o : Host.Outcome State Fault Refusal) (p : State → Bool) : Bool :=
  match o with
  | .next t => p t
  | .fault _ => false
  | .refused _ => false

/-- The engine's edge gives a next engine that passes the check. -/
def engineIs (o : Host.Outcome Engine Fault Refusal) (p : Engine → Bool) : Bool :=
  match o with
  | .next t => p t
  | .fault _ => false
  | .refused _ => false

/-- A reset state that holds `n` bytes `v` of a first block. -/
def holding (v : Byte) (n : Fin 64) : State :=
  { State.reset with buf := Vector.ofFn fun j => if j.val < n.val then v else 0xEE#8, fill := n }

/-- A reset state of a block without the harvester. -/
def bare : State := { State.reset with params := { Params.default with harvester := .absent } }

/-- A state after `n` samples of 100, with a window of `m` ones. -/
def sampled (n m : Nat) : State :=
  { State.reset with ns := BitVec.ofNat 64 n, sum := 100 * n, win := List.replicate m true }

/-- A state after 1000 samples of 100 as it really is, with its records. -/
def after1000 : State :=
  { sampled 1000 512 with out := List.replicate 489 { src := .harv, data := 0 } }

/-- A reset state whose sample count is at its last value. -/
def lastSample : State := { State.reset with ns := BitVec.allOnes 64 }

/-- An idle engine in a state. -/
def idleAt (s : State) : Engine := { Engine.reset with arch := s }

/-- An engine that presents a record. -/
def presentingEngine : Engine :=
  { Engine.reset with
    phase := .presenting { src := .host, data := 7 }
      { State.reset with out := [{ src := .host, data := 7 }] } }

/-! ## Well-formedness -/

theorem test_smpl_is_refused_without_harvester : (Instr.smpl 5).wellFormed .absent = false := by decide

theorem test_smpl_is_accepted_with_harvester : (Instr.smpl 5).wellFormed .present = true := by decide

/-- R7: a compression takes at least one cycle. -/
theorem test_params_refuse_no_cycle : { Params.default with latC := 0 }.wf = false := by decide

/-- R7: 3 is no width of an iterative datapath. -/
theorem test_params_refuse_width_3 :
    { Params.default with datapath := .iterative 3, latC := 64 }.wf = false := by decide

/-- R114: an iterative datapath takes at least 64 / k cycles. -/
theorem test_params_refuse_16_rounds_in_3_cycles :
    { Params.default with datapath := .iterative 16, latC := 3 }.wf = false ∧
    { Params.default with datapath := .iterative 16, latC := 4 }.wf = true := by decide

/-! ## Decoding, one word a command, written out from 30_encoding.md R70, R72, R73: OP then DATA -/

theorem test_decode_nop : decode .absent 0x00FFFFFFFFFFFFFFFF#72 = .command .nop := by decide

theorem test_decode_reset : decode .absent 0x01123456789ABCDEF0#72 = .command .reset := by decide

theorem test_decode_digest : decode .absent 0x028000000000000001#72 = .command .digest := by decide

theorem test_decode_upd1 : decode .absent 0x10FFFFFFFFFFFFFF61#72 = .command (.upd1 0x61#8) := by decide

theorem test_decode_upd2 : decode .absent 0x11FFFFFFFFFFFF6162#72 = .command (.upd2 0x6162#16) := by decide

theorem test_decode_upd3 : decode .absent 0x12FFFFFFFFFF616263#72 = .command (.upd3 0x616263#24) := by
  decide

theorem test_decode_upd4 : decode .absent 0x13FFFFFFFF61626364#72 = .command (.upd4 0x61626364#32) := by
  decide

theorem test_decode_upd5 : decode .absent 0x14FFFFFF6162636465#72 = .command (.upd5 0x6162636465#40) := by
  decide

theorem test_decode_upd6 : decode .absent 0x15FFFF616263646566#72 = .command (.upd6 0x616263646566#48) := by
  decide

theorem test_decode_upd7 : decode .absent 0x16FF61626364656667#72 = .command (.upd7 0x61626364656667#56) := by
  decide

theorem test_decode_upd8 : decode .absent 0x176162636465666768#72 = .command (.upd8 0x6162636465666768#64) := by
  decide

theorem test_decode_smpl : decode .present 0x208000000000000000#72 = .command (.smpl 0x8000000000000000#64) := by
  decide

/-- V-E4: without the harvester 0x20 is reserved. -/
theorem test_decode_smpl_absent : decode .absent 0x200000000000000005#72 = .reserved 0x20#8 := by decide

theorem test_encode_upd3 : encode (.upd3 0x616263#24) = 0x120000000000616263#72 := by decide

theorem test_decodeTableWord_reads_the_72_bit_word :
    decodeTableWord 72 0x120000000000616263 = some (.upd3 0x616263#24) := by decide

/-! ## Compression (V-F, V-R, V-C) -/

theorem test_sigmas_of_0x12345678 :
    bigSigma0 0x12345678#32 = 0x66146474#32 ∧ bigSigma1 0x12345678#32 = 0x3561ABDA#32 ∧
    smallSigma0 0x12345678#32 = 0xE7FCE6EE#32 ∧ smallSigma1 0x12345678#32 = 0xA1F78649#32 ∧
    rotr 0x12345678#32 7 = 0xF02468AC#32 := by decide

theorem test_ch_and_maj_of_iv :
    ch iv.e iv.f iv.g = 0x1F85C98C#32 ∧ maj iv.a iv.b iv.c = 0x3A6FE667#32 := by decide

/-- V-R1, row 0: the first round of the "abc" block. -/
theorem test_first_round : sha256Round 0 iv 0x61626380#32 =
    { a := 0x5d6aebcd#32, b := 0x6a09e667#32, c := 0xbb67ae85#32, d := 0x3c6ef372#32,
      e := 0xfa2a4622#32, f := 0x510e527f#32, g := 0x9b05688c#32, h := 0x1f83d9ab#32 } := by decide

/-! ## Commands -/

/-- R140. -/
theorem test_nop : nextIs (exec .nop (holding 0x61#8 3)) (fun t => decide (t = holding 0x61#8 3)) = true := by
  decide

/-- R141: a partial message is discarded. -/
theorem test_reset_discards :
    nextIs (exec .reset { holding 0x61#8 3 with bitcnt := 512#64, err := true, cause := 1#2 })
      (fun t => decide (t.h = iv ∧ t.fill = 0 ∧ t.bitcnt = 0#64 ∧ t.err = true ∧ t.out = [])) = true := by
  decide

/-- R144: at FILL = 63 the second byte becomes BUF[0]. -/
theorem test_upd2_across_boundary :
    nextIs (exec (.upd2 0x6162#16) (holding 0x61#8 63))
      (fun t => decide (t.fill = 1 ∧ t.buf[0] = 0x62#8 ∧ t.bitcnt = 512#64)) = true := by decide

/-- R145: leading zero bytes are data. -/
theorem test_upd3_keeps_zero_bytes :
    nextIs (exec (.upd3 0x000061#24) (holding 0x61#8 1))
      (fun t => decide (t.fill = 4 ∧ t.buf[1] = 0x00#8 ∧ t.buf[2] = 0x00#8 ∧ t.buf[3] = 0x61#8)) = true := by
  decide

/-- R146: at FILL = 0 the four bytes become W[0] in order. -/
theorem test_upd4_is_word_zero :
    nextIs (exec (.upd4 0x61626364#32) (holding 0#8 0))
      (fun t => decide (t.fill = 4 ∧ loadWord t.buf 0 = 0x61626364#32)) = true := by decide

/-- R147: a compression runs exactly when FILL ≥ 59. -/
theorem test_upd5_at_58 :
    nextIs (exec (.upd5 0x6162636465#40) (holding 0x61#8 58))
      (fun t => decide (t.fill = 63 ∧ t.bitcnt = 0#64 ∧ t.buf[62] = 0x65#8)) = true := by decide

/-- R148: a compression runs exactly when FILL ≥ 58. -/
theorem test_upd6_at_58 :
    nextIs (exec (.upd6 0x616263646566#48) (holding 0x61#8 58))
      (fun t => decide (t.fill = 0 ∧ t.bitcnt = 512#64)) = true := by decide

/-- R149: a compression runs exactly when FILL ≥ 57. -/
theorem test_upd7_at_58 :
    nextIs (exec (.upd7 0x61626364656667#56) (holding 0x61#8 58))
      (fun t => decide (t.fill = 1 ∧ t.buf[0] = 0x67#8)) = true := by decide

/-- V-H15: from FILL = 60 the last four bytes become BUF[0..3]. -/
theorem test_upd8_at_60 :
    nextIs (exec (.upd8 0x6162636465666768#64) (holding 0x61#8 60))
      (fun t => decide (t.fill = 4 ∧ t.bitcnt = 512#64 ∧ t.buf[0] = 0x65#8 ∧ t.buf[3] = 0x68#8)) = true := by
  decide

/-- V-HV1: `SMPL 3` after `SMPL 5` gives bit 0. -/
theorem test_smpl_below_mean :
    nextIs (exec (.smpl 3#64) { sampled 1 1 with sum := 5 })
      (fun t => decide (t.ns = 2#64 ∧ t.sum = 8 ∧ t.win = [true, false] ∧ t.out = [])) = true := by
  decide

/-- V-E5: ErrSampleOverflow. -/
theorem test_smpl_overflow :
    nextIs (exec (.smpl 7#64) lastSample)
      (fun t => decide (t.err = true ∧ t.cause = 0b10#2 ∧ t.ns = BitVec.allOnes 64 ∧ t.sum = 0)) = true := by
  decide

/-- V-E2: the first cause is kept. -/
theorem test_reserved_keeps_first_cause :
    nextIs (performWord 0x180000000000000000#72 { lastSample with err := true, cause := 0b10#2 })
      (fun t => decide (t.cause = 0b10#2)) = true := by decide

/-- V-HV10: PACK of a window starting 1, 0, 1 starts 0xA0, 0x00. -/
theorem test_pack_msb_first :
    (pack ([true, false, true] ++ List.replicate 509 false))[0] = 0xA0#8 ∧
    (pack ([true, false, true] ++ List.replicate 509 false))[1] = 0x00#8 := by decide

/-- The examples of R182. -/
theorem test_meanBit_examples :
    meanBit .exact (-5) 3 (-5) = false ∧ meanBit .exact 7 4 2 = true := by decide

/-- A step takes the presented word: RESET is 0x01. -/
theorem test_step_takes_fetch_word :
    nextIs (step ((holding 0x61#8 3).withFetchWord 72 0x010000000000000000))
      (fun t => decide (t.fill = 0 ∧ t.inbox = [])) = true := by decide

/-- R80: `UPDATE "abcdefghi"` expands to an UPD8 and an UPD1. -/
theorem test_update_expansion :
    updateWords [0x61#8, 0x62#8, 0x63#8, 0x64#8, 0x65#8, 0x66#8, 0x67#8, 0x68#8, 0x69#8] =
      [0x176162636465666768#72, 0x100000000000000069#72] := by decide

/-- R81, from text: `SMPL -1 ; note`, in mixed case. -/
theorem test_assemble_smpl_text :
    assembleText ['S', 'm', 'P', 'l', ' ', '-', '1', ' ', ';', ' ', 'n'] =
      some [0x20FFFFFFFFFFFFFFFF#72] := by decide

/-- R79: an immediate out of range is refused. -/
theorem test_assemble_refuses_256 : assembleText ['u', 'p', 'd', '1', ' ', '2', '5', '6'] = none := by
  decide

/-- V-H30: HEX starts `e3b0`, BIN starts `11100011`. -/
theorem test_renderings :
    (hexString 0xe3b0c44298fc1c149afbf4c8996fb92427ae41e4649b934ca495991b7852b855#256).take 4 =
      ['e', '3', 'b', '0'] ∧
    (binString 0xe3b0c44298fc1c149afbf4c8996fb92427ae41e4649b934ca495991b7852b855#256).take 8 =
      ['1', '1', '1', '0', '0', '0', '1', '1'] := by decide

/-- R238: NOP takes one cycle from the accepting edge, and BUSY is 1 until then. -/
theorem test_port_nop_takes_one_cycle :
    engineIs (edges [presentEdge 0 true] Engine.reset) (fun e => e.busy) = true ∧
    engineIs (edges [presentEdge 0 true, quietEdge true] Engine.reset) (fun e => !e.busy) = true := by
  decide

/-- R237: a record waits for `res_ready`, and its command's effects with it. -/
theorem test_port_record_waits :
    engineIs (edges [quietEdge false, quietEdge false] presentingEngine)
      (fun e => e.busy && decide (e.arch.out = [])) = true ∧
    engineIs (edges [quietEdge false, quietEdge true] presentingEngine)
      (fun e => !e.busy && decide (e.arch.out.length = 1)) = true := by decide

/-! ## Witnesses: the hypotheses of each statement can be met, each clause at its boundary -/

theorem witness_DecodeOfEncodeIsTheCommand : (Instr.smpl 0x8000000000000000#64).wellFormed .present = true := by
  decide

theorem witness_EncodeOfDecodeClearsIgnoredBits :
    decode .present 0x12FFFFFFFFFF616263#72 = .command (.upd3 0x616263#24) := by decide

theorem witness_IgnoredBitsHaveNoEffect :
    decode State.reset.params.harvester 0x12FFFFFFFFFF616263#72 = .command (.upd3 0x616263#24) ∧
    0x12FFFFFFFFFF616263#72 &&& usedBits (.upd3 0x616263#24) =
      0x120000000000616263#72 &&& usedBits (.upd3 0x616263#24) := by decide

theorem witness_ReservedWords_boundaries :
    (∀ op ∈ [0x03#8, 0x0F#8, 0x18#8, 0x1F#8, 0x21#8, 0xFF#8], reservedOp .present op) ∧
    reservedOp .absent 0x20#8 ∧
    (∀ op ∈ [0x00#8, 0x02#8, 0x10#8, 0x17#8, 0x20#8], ¬ reservedOp .present op) ∧
    bare.params.harvester = .absent := by
  unfold reservedOp; decide

theorem witness_SmplWithoutHarvesterIsReserved : bare.params.harvester = .absent := rfl

theorem witness_DecodeFollowsTheOpcodeTable :
    ⟨"SMPL", 0x200000000000000000#72, 0xFF0000000000000000#72⟩ ∈ opcodeRows := by decide

theorem witness_StepRunsTheDecodedCommand :
    (presentWord 0x120000000000616263#72 State.reset).inbox = .command 0x120000000000616263#72 :: [] ∧
    decode (presentWord 0x120000000000616263#72 State.reset).params.harvester 0x120000000000616263#72 =
      .command (.upd3 0x616263#24) ∧
    (presentWord 0x030000000000000000#72 State.reset).inbox = .command 0x030000000000000000#72 :: [] ∧
    decode (presentWord 0x030000000000000000#72 State.reset).params.harvester 0x030000000000000000#72 =
      .reserved 0x03#8 := by decide

theorem witness_StepIdlesOrTakesASystemReset :
    State.reset.inbox = [] ∧ { State.reset with inbox := [.systemReset] }.inbox = [.systemReset] := by decide

theorem witness_StepKeepsParametersAndUsesOneInput : step State.reset = .next State.reset := rfl

theorem witness_UpdAbsorbsItsBytes_boundaries :
    (holding 0x61#8 55).fill.val + 8 < 64 ∧ 64 ≤ (holding 0x61#8 56).fill.val + 8 ∧
    (holding 0x61#8 62).fill.val + 1 < 64 ∧ 64 ≤ (holding 0x61#8 63).fill.val + 1 := by decide

theorem witness_DigestPadsEmitsAndResets_boundaries :
    (holding 0x61#8 55).fill.val ≤ 55 ∧ 56 ≤ (holding 0x61#8 56).fill.val := by decide

/-- The state that holds the one byte "a" stands for the message "a". -/
theorem witness_CommandsExtendTheMessage :
    State.reset.atCtx0 ∧ keepsMessage (.upd1 0x62#8) = true ∧ (holding 0x61#8 1).Holds [0x61#8] :=
  ⟨by decide, rfl, ⟨rfl, rfl, by decide, rfl⟩⟩

theorem witness_DigestOfAnySplitIsSha256 :
    State.reset.atCtx0 ∧
    (∀ c ∈ [Instr.upd1 0x61#8, .smpl 5#64, .upd2 0x6263#16], keepsMessage c = true) ∧
    (∀ c ∈ [Instr.upd1 0x61#8, .upd2 0x6263#16], isHashCommand c = true) := by
  refine ⟨by decide, by decide, by decide⟩

theorem witness_UpdatePseudoInstructionAbsorbsItsBytes : (holding 0x61#8 1).Holds [0x61#8] :=
  ⟨rfl, rfl, by decide, rfl⟩

theorem witness_OnlyTheHashCommandsWriteH :
    ∃ t, performWord 0x010000000000000000#72 { State.reset with h := ⟨0, 0, 0, 0, 0, 0, 0, 0⟩ } = .next t ∧
      t.h ≠ ⟨0, 0, 0, 0, 0, 0, 0, 0⟩ :=
  ⟨_, rfl, by decide⟩

theorem witness_HashContextAndHarvesterAreIndependent :
    isHashCommand .digest = true ∧ (holding 0x61#8 3).h = { holding 0x61#8 3 with ns := 9#64 }.h ∧
    (∀ j : Fin 64, j.val < 3 → (holding 0x61#8 3).buf[j] = { holding 0x61#8 3 with ns := 9#64 }.buf[j]) ∧
    (∃ t, exec .digest (holding 0x61#8 3) = .next t) ∧
    (sampled 3 3).params = { sampled 3 3 with fill := 5 }.params ∧
    (sampled 3 3).sameHarvester { sampled 3 3 with fill := 5 } ∧
    (∃ t, exec (.smpl 1#64) (sampled 3 3) = .next t) :=
  ⟨rfl, rfl, fun _ _ => rfl, ⟨_, rfl⟩, rfl, ⟨rfl, rfl, rfl⟩, ⟨_, rfl⟩⟩

/-- Two states that differ in the bytes at and beyond FILL only. -/
theorem witness_UnspecifiedBufferBytesAreUnobservable :
    (holding 0x61#8 3).Agrees { holding 0x61#8 3 with buf := Vector.replicate 64 0x61#8 } ∧
    (holding 0x61#8 3).buf ≠ Vector.replicate 64 0x61#8 ∧
    step (holding 0x61#8 3) = .next (holding 0x61#8 3) :=
  ⟨⟨rfl, rfl, rfl, by decide, rfl, rfl, rfl, rfl, rfl, rfl, rfl, rfl⟩, by decide, rfl⟩

theorem witness_WordFunctionsAreBitwise : 0 < 31 ∧ 31 < 32 ∧ 0 < 1 ∧ 1 < 32 := by decide

theorem witness_ConstantsAreRootsOfPrimes : 7 < 8 ∧ 63 < 64 := by decide

theorem witness_CompressIsSixtyFourRounds : 0 < 64 ∧ 63 < 64 := by decide

theorem witness_ScheduleFollowsTheRecurrence : (16 ≤ 16 ∧ 16 < 64) ∧ 16 ≤ 63 ∧ 63 < 64 := by decide

theorem witness_RollingScheduleIsTheSchedule : (16 ≤ 16 ∧ 16 < 64) ∧ (16 ≤ 63 ∧ 63 < 64) ∧ 0 < 16 ∧ 15 < 16 := by
  decide

theorem witness_DigestBytesAreBigEndian : (0 < 8 ∧ 0 < 4) ∧ 7 < 8 ∧ 3 < 4 := by decide

theorem witness_BinaryRenderingExpandsHex :
    'e' ∈ hexString 0xe3b0c44298fc1c149afbf4c8996fb92427ae41e4649b934ca495991b7852b855#256 ∧ 63 < 64 ∧
    255 < 256 := by decide

theorem witness_IterativeDatapathIsCompress :
    1 ∈ iterativeWidths ∧ 32 ∈ iterativeWidths ∧ 2 ≤ 64 / 32 ∧ 64 ≤ 64 / 1 := by decide

theorem witness_PipelinedDatapathIsCompress :
    (List.replicate 63 (some (flightOf iv (Vector.replicate 64 0x00#8)))).length = 63 :=
  List.length_replicate

theorem witness_SmplTakesOneSample_boundaries :
    State.reset.params.harvester = .present ∧
    { State.reset with ns := BitVec.allOnes 64 - 1#64 }.ns ≠ BitVec.allOnes 64 ∧
    lastSample.params.harvester = .present ∧ lastSample.ns = BitVec.allOnes 64 := by decide

theorem witness_WhiteningIsTwoCompressions : (List.replicate 512 true).length = 512 := List.length_replicate

theorem witness_ConstantDurationsGiveOnes :
    State.reset.params.harvester = .present ∧ State.reset.params.meanCmp = .exact ∧
    State.reset.win = [] ∧ State.reset.ns = 0#64 ∧ State.reset.sum = 0 ∧ 513 < 2 ^ 64 := by decide

/-- A state after 1000 samples that meets the invariant. -/
theorem after1000_inv : after1000.Inv :=
  ⟨by decide, by decide, by decide, by decide, List.length_replicate, by decide, by decide,
    List.countP_replicate, by decide⟩

theorem witness_HostRunYieldsWholeBlocks :
    after1000.Inv ∧ after1000.params.harvester = .present ∧ pIter ≤ after1000.ns.toNat ∧
    after1000.ns.toNat + pIter < 2 ^ 64 ∧ (List.replicate pIter 5#64).length = pIter :=
  ⟨after1000_inv, by decide, by decide, by decide, List.length_replicate⟩

/-- A state with no sample taken that meets the invariant: an erroneous word was seen. -/
theorem witness_HostRunYieldsWholeBlocks_first :
    { State.reset with err := true, cause := 0b01#2 }.Inv ∧
    { State.reset with err := true, cause := 0b01#2 }.ns = 0#64 :=
  ⟨⟨by decide, by decide, by decide, by decide, by decide, by decide, by decide, by decide, by decide⟩,
    rfl⟩

theorem witness_SampleRecordsAreDetermined :
    (sampled 3 3).params = { sampled 3 3 with fill := 5 }.params ∧
    (sampled 3 3).sameHarvester { sampled 3 3 with fill := 5 } := ⟨rfl, rfl, rfl, rfl⟩

theorem witness_ErrorsComeFromExactlyTwoSituations :
    (∃ t, performWord 0x030000000000000000#72 State.reset = .next t) ∧
    reservedOp State.reset.params.harvester (opField 0x030000000000000000#72) ∧
    (∃ t, performWord 0x200000000000000007#72 lastSample = .next t) ∧
    opField 0x200000000000000007#72 = 0x20#8 ∧ lastSample.ns = BitVec.allOnes 64 ∧
    (∃ t, performWord 0x200000000000000007#72 State.reset = .next t) ∧
    State.reset.ns ≠ BitVec.allOnes 64 :=
  ⟨⟨_, rfl⟩, by unfold reservedOp; decide, ⟨_, rfl⟩, by decide, rfl, ⟨_, rfl⟩, by decide⟩

theorem witness_ErrorIsStickyAndTheEngineGoesOn :
    (∃ t, performWord 0x100000000000000061#72 { State.reset with err := true, cause := 0b01#2 } = .next t) ∧
    { State.reset with err := true, cause := 0b01#2 }.err = true := ⟨⟨_, rfl⟩, rfl⟩

theorem witness_WordsAppendAtMostOneRecord :
    ∃ t, performWord 0x020000000000000000#72 State.reset = .next t := ⟨_, rfl⟩

theorem witness_StepKeepsTheInvariant : after1000.Inv ∧ step after1000 = .next after1000 :=
  ⟨after1000_inv, rfl⟩

/-- A DIGEST from an idle engine, one compression, while the host presents and holds its next word; it takes
the record after a wait of one edge. -/
theorem witness_PortRunPerformsTheCommand :
    Engine.reset.wasReset = true ∧ Engine.reset.phase = .idle ∧
    holdsWord Engine.reset (presentEdge 0x020000000000000000#72 false) = true ∧
    (∃ t r, performWord 0x020000000000000000#72 Engine.reset.arch = .next t ∧
      t.out = Engine.reset.arch.out ++ [r]) ∧
    HostKeeps none [quietEdge true, presentEdge 7#72 false] ∧
    [quietEdge true, presentEdge 7#72 false].length =
      tableCycles 0x020000000000000000#72 Engine.reset.arch ∧
    HostKeeps (some 7#72) ([presentEdge 7#72 false] ++ [presentEdge 7#72 true]) :=
  ⟨rfl, rfl, rfl, ⟨_, _, rfl, rfl⟩, by simp [HostKeeps, quietEdge, presentEdge], by decide,
    by simp [HostKeeps, presentEdge]⟩

/-- A NOP from an idle engine makes no record. -/
theorem witness_PortRunPerformsTheCommand_quiet :
    (∃ t, performWord 0x000000000000000000#72 Engine.reset.arch = .next t ∧
      t.out = Engine.reset.arch.out) ∧
    [quietEdge true].length = tableCycles 0x000000000000000000#72 Engine.reset.arch :=
  ⟨⟨_, rfl, rfl⟩, by decide⟩

theorem witness_RecordWaitsForTheHost :
    presentingEngine.wasReset = true ∧ (quietEdge false).rst = false ∧
    holdsWord presentingEngine (quietEdge false) = true ∧ (quietEdge true).resReady = true ∧
    ∃ r after, presentingEngine.phase = .presenting r after :=
  ⟨rfl, rfl, rfl, rfl, _, _, rfl⟩

theorem witness_BusyEngineTakesNoWord :
    presentingEngine.busy = true ∧ holdsWord presentingEngine (presentEdge 7 false) = true ∧
    holdsWord presentingEngine (presentEdge 8 false) = true := ⟨rfl, rfl, rfl⟩

/-- An engine in the last cycle of a command that makes one record. -/
def lastCycleEngine : Engine :=
  { Engine.reset with phase := .working 1 { State.reset with out := [{ src := .host, data := 7 }] } }

theorem witness_RecordsAreDeliveredOnce :
    (quietEdge true).rst = false ∧ (quietEdge false).resReady = false ∧
    Owes presentingEngine ∧ (∃ e', edge (quietEdge true) presentingEngine = .next e') ∧
    (∃ e', edge (quietEdge false) presentingEngine = .next e') ∧
    Owes lastCycleEngine ∧ (∃ e', edge (quietEdge true) lastCycleEngine = .next e') ∧
    { State.reset with out := [{ src := .host, data := 7 }] }.out =
      lastCycleEngine.arch.out ++ [{ src := .host, data := 7 }] :=
  ⟨rfl, rfl, rfl, ⟨_, rfl⟩, ⟨_, rfl⟩, ⟨[{ src := .host, data := 7 }], Nat.le_refl 1, rfl⟩, ⟨_, rfl⟩, rfl⟩

/-- An idle engine that is given NOP, an engine two cycles before the end of its work, and one whose command
makes no record. -/
theorem witness_RecordsAreDeliveredOnce_quiet :
    Owes Engine.reset ∧ (presentEdge 0#72 true).cmdValid = true ∧
    (∃ e', edge (presentEdge 0#72 true) Engine.reset = .next e') ∧
    Owes { Engine.reset with phase := .working 2 State.reset } ∧
    (∃ e', edge (quietEdge true) { Engine.reset with phase := .working 2 State.reset } = .next e') ∧
    Owes { Engine.reset with phase := .working 1 State.reset } ∧
    (∃ e', edge (quietEdge true) { Engine.reset with phase := .working 1 State.reset } = .next e') ∧
    State.reset.out = Engine.reset.arch.out :=
  ⟨trivial, rfl, ⟨_, rfl⟩, ⟨[], Nat.zero_le 1, rfl⟩, ⟨_, rfl⟩, ⟨[], Nat.zero_le 1, rfl⟩, ⟨_, rfl⟩, rfl⟩

theorem witness_ResetEdgeAbandonsTheCommand :
    ({ quietEdge false with rst := true } : PortIn).rst = true ∧ presentingEngine.wasReset = true ∧
    { presentingEngine with wasReset := false }.wasReset = false :=
  ⟨rfl, rfl, rfl⟩

theorem witness_ResetEdgeForgetsTheHeldWord :
    ({ quietEdge false with rst := true } : PortIn).rst = true ∧
    { presentingEngine with hold := some 7#72 }.hold = some 7#72 := ⟨rfl, rfl⟩

/-- A presenting engine whose host holds its next word, and a DIGEST accepted from a host that goes on to
present one. -/
theorem witness_AcceptedCommandsComplete :
    { presentingEngine with hold := some 7#72 }.wasReset = true ∧
    HostKeeps (some 7#72) [presentEdge 7#72 true] ∧ (presentEdge 7#72 true).resReady = true ∧
    edgesLeft { presentingEngine with hold := some 7#72 } ≤ [presentEdge 7#72 true].length ∧
    (∃ t, performWord 0x020000000000000000#72 Engine.reset.arch = .next t ∧
      HostKeeps none [quietEdge true, presentEdge 7#72 true, presentEdge 7#72 true] ∧
      [quietEdge true, presentEdge 7#72 true, presentEdge 7#72 true].length =
        tableCycles 0x020000000000000000#72 Engine.reset.arch +
          (t.out.length - Engine.reset.arch.out.length)) :=
  ⟨rfl, by simp [HostKeeps, presentEdge], rfl, by decide,
    ⟨_, rfl, by simp [HostKeeps, quietEdge, presentEdge], rfl⟩⟩

/-- An engine that presents a record, in states that meet the invariant. -/
theorem witness_EdgeKeepsTheInvariant :
    PortInv presentingEngine ∧ ∃ e', edge (quietEdge true) presentingEngine = .next e' :=
  ⟨⟨⟨by decide, by decide, by decide, by decide, by decide, by decide, by decide, by decide, by decide⟩,
    ⟨by decide, by decide, by decide, by decide, by decide, by decide, by decide, by decide, by decide⟩,
    rfl⟩, ⟨_, rfl⟩⟩

/-- A legal block with a placement and an iterative datapath. -/
theorem witness_EveryLegalDatapathIsCompress :
    { Params.default with datapath := .iterative 4, latC := 16, base := some ⟨0, 16, 32⟩ }.wf = true ∧
    { Params.default with datapath := .pipelined, latC := 64 }.wf = true ∧ Params.default.wf = true := by
  decide

theorem witness_TimingParametersAndPlacementHaveNoEffect :
    ∃ t, step (presentWord 0x020000000000000000#72 State.reset) = .next t := ⟨_, rfl⟩

theorem witness_UnresetBlocksAndBrokenHandshakesAreRefused :
    { presentingEngine with wasReset := false }.wasReset = false ∧
    { presentingEngine with hold := some 7#72 }.hold = some 7#72 ∧
    (quietEdge false).cmdValid = false ∧ (presentEdge 8#72 false).cmd ≠ 7#72 := by
  refine ⟨rfl, rfl, rfl, by decide⟩

theorem witness_AssemblerEncodesOrRefuses :
    255 < 2 ^ (8 * 1) ∧ 2 ^ (8 * 1) ≤ 256 ∧ -(2 ^ 63 : Int) ≤ -(2 ^ 63) ∧ (2 ^ 63 : Int) ≤ 2 ^ 63 ∧
    255 < 256 ∧ 2 ^ 64 - 1 < 2 ^ 64 ∧ 256 ≤ 256 := by decide

/-! ## What only the kernel evaluates: long windows and compressions. Last, since these are the slow ones -/

/-- V-HV4: the 512th sample of 100 fills the window with ones and emits one HARV record. -/
theorem test_smpl_fills_window :
    nextIs (exec (.smpl 100#64) (sampled 511 511))
      (fun t => decide (t.win = List.replicate 512 true ∧ t.out.map (·.src) = [.harv])) = true := by
  decide +kernel

/-- The table of R238 at its boundaries, with P_LAT_C = 1: DIGEST at FILL 55 and 56, UPD1 at FILL 62 and 63, SMPL
at 510 and 511 bits of the window and on a full one, the overflowing SMPL, and a reserved word. -/
theorem witness_tableCycles_boundaries :
    tableCycles 0x020000000000000000#72 (holding 0x61#8 55) = 2 ∧
    tableCycles 0x020000000000000000#72 (holding 0x61#8 56) = 3 ∧
    tableCycles 0x100000000000000061#72 (holding 0x61#8 62) = 1 ∧
    tableCycles 0x100000000000000061#72 (holding 0x61#8 63) = 2 ∧
    tableCycles 0x200000000000000005#72 (sampled 510 510) = 1 ∧
    tableCycles 0x200000000000000005#72 (sampled 511 511) = 3 ∧
    tableCycles 0x200000000000000005#72 (sampled 512 512) = 3 ∧
    tableCycles 0x200000000000000005#72 { sampled 0 512 with ns := BitVec.allOnes 64 } = 1 ∧
    tableCycles 0x200000000000000005#72 { sampled 511 511 with params := bare.params } = 1 ∧
    tableCycles 0x030000000000000000#72 (holding 0x61#8 63) = 1 := by decide +kernel

/-- V-E6: 244 reserved values with the harvester. -/
theorem test_decode_counts_244_reserved :
    ((List.range 256).filter fun op => decide
      (decode .present (rawWord (BitVec.ofNat 8 op) 0) = .reserved (BitVec.ofNat 8 op))).length = 244 := by
  decide +kernel

/-- V-C3: all zero words and 64 zero bytes. -/
theorem test_compress_zero : compress ⟨0, 0, 0, 0, 0, 0, 0, 0⟩ (Vector.replicate 64 0x00#8) =
    { a := 0x7ca51614#32, b := 0x425c3ba8#32, c := 0xce54dd2f#32, d := 0xc2020ae7#32,
      e := 0xb6e574d1#32, f := 0x98136d0f#32, g := 0xae7e26cc#32, h := 0xbf0be7a6#32 } := by
  decide +kernel

/-- V-S1: two words of the schedule of the padded "abc" block. -/
theorem test_schedule_abc :
    (schedule (onePadBlock { holding 0x61#8 3 with
      buf := (Vector.replicate 64 0x00#8 |>.set 0 0x61#8 |>.set 1 0x62#8 |>.set 2 0x63#8) } 24#64)).getD 63 0
      = 0x12b1edeb#32 := by decide +kernel

/-- V-H14: the 64th byte "a" starts a compression; H is V-C4. -/
theorem test_upd1_completes_block :
    nextIs (exec (.upd1 0x61#8) (holding 0x61#8 63))
      (fun t => decide (t.fill = 0 ∧ t.bitcnt = 512#64 ∧ t.h =
        { a := 0xdf5bb81c#32, b := 0xe81e0626#32, c := 0xfb45a894#32, d := 0x4fd40f31#32,
          e := 0xb25e6816#32, f := 0xd6d499c1#32, g := 0xab904929#32, h := 0x00635e66#32 })) = true := by
  decide +kernel

/-- V-H16: FILL = 55, one compression. -/
theorem test_digest_at_55 :
    nextIs (exec .digest (holding 0x61#8 55)) (fun t => decide (t.out = [{ src := .host, data := 0x9f4390f8d30c2dd92ec9f095b65e2b9ae9b0a925a5258e241c9f1e910f734318#256 }])) = true := by
  decide +kernel

/-- V-H17: FILL = 56, two compressions; the context returns to `CTX0`. -/
theorem test_digest_at_56 :
    nextIs (exec .digest (holding 0x61#8 56)) (fun t => decide (t.out = [{ src := .host, data := 0xb35439a4ac6f0948b6d6f9e3c6af0f5f590ce20f1bde7090ef7970686ec6738a#256 }] ∧ t.atCtx0)) = true := by
  decide +kernel

/-- The empty-message digest of the message-level function (V-H20). -/
theorem test_sha256_empty :
    sha256 [] = 0xe3b0c44298fc1c149afbf4c8996fb92427ae41e4649b934ca495991b7852b855#256 := by decide +kernel

/-- V-HV4, R184: the last byte of a packed window of ones. -/
theorem test_pack_of_ones : packByte (List.replicate 512 true) 63 = 0xFF#8 := by decide +kernel

/-- V-HV4: the digest of 64 bytes 0xFF. -/
theorem test_sha256_of_ones : sha256 (List.replicate 64 0xFF#8) =
    0x8667e718294e9e0df1d30600ba3eeb201f764aad2dad72748643e4a285e1d1f7#256 := by decide +kernel

end Sys2Proof.Tests
end

/-! PROOF. The state right after a system reset (10_state.md R38). Each field is read by the `resetWith` law of
that field; the two derived readings, STATUS and WCNT, get their own laws here, for every parameter set. -/

namespace Sys2Proof.Machine

@[simp] theorem resetWith_status (p : Params) : (State.resetWith p).status = 0b0000#4 := by
  rw [State.status, resetWith_err, resetWith_cause]
  rfl

@[simp] theorem resetWith_wcnt (p : Params) : (State.resetWith p).wcnt = 0 := by
  rw [State.wcnt, resetWith_win, List.length_nil]

/-- Settles O11: `State.reset` is `State.resetWith` of the default parameters, so each clause is the law of its
field. Nothing is said of BUF, as in R38. -/
theorem resetStateHasTheListedValues : Obligations.ResetStateHasTheListedValues := by
  unfold Obligations.ResetStateHasTheListedValues State.reset
  exact ⟨resetWith_h _, resetWith_fill _, resetWith_bitcnt _, resetWith_err _, resetWith_cause _,
    resetWith_status _, resetWith_win _, resetWith_wcnt _, resetWith_ns _, resetWith_sum _, resetWith_out _⟩

end Sys2Proof.Machine

/-! PROOF. A digest as a byte sequence (20_memory.md R53): a byte of D is a byte of one of the eight words of the
concatenation. -/

namespace Sys2Proof.Machine

/-- A part of a part lies in the whole at the sum of the two offsets. -/
theorem extractLsb'_extractLsb'_of_add_le {w start len start' len' : Nat} (x : BitVec w)
    (hle : start + len ≤ len') :
    (x.extractLsb' start' len').extractLsb' start len = x.extractLsb' (start' + start) len := by
  ext k hk
  have hk' : start + k < len' := by omega
  simp only [BitVec.getElem_extractLsb', BitVec.getLsbD_extractLsb', hk', decide_true, Bool.true_and,
    Nat.add_assoc]

theorem getD_digestBytes (d : DigestWord) {m : Nat} (hm : m < 32) :
    (digestBytes d).getD m 0 = d.extractLsb' (248 - 8 * m) 8 := by
  simp [digestBytes, hm]

/-- The words stand in the order of R53, H[0] on top: drop the words below H[i], and H[i] is the low word of what
is left (for H[0], all of it). -/
theorem extractLsb'_digestValue (v : HashWords) {i : Nat} (hi : i < 8) :
    (digestValue v).extractLsb' (224 - 32 * i) 32 =
      [v.a, v.b, v.c, v.d, v.e, v.f, v.g, v.h].getD i 0 := by
  unfold digestValue
  interval_cases i
  · iterate 7 rw [BitVec.extractLsb'_append_eq_of_le (by decide)]
    exact BitVec.extractLsb'_eq_self
  all_goals
    repeat rw [BitVec.extractLsb'_append_eq_of_le (by decide)]
    exact BitVec.extractLsb'_append_eq_right

/-- Settles O33: byte `4i + j` of D starts at bit `248 − 8(4i + j) = (224 − 32i) + (24 − 8j)`, which is bit
`24 − 8j` of the word H[i]. -/
theorem digestBytesAreBigEndian : Obligations.DigestBytesAreBigEndian := by
  unfold Obligations.DigestBytesAreBigEndian
  intro v i j hi hj
  have hbit : 248 - 8 * (4 * i + j) = (224 - 32 * i) + (24 - 8 * j) := by omega
  rw [getD_digestBytes _ (by omega), hbit, ← extractLsb'_digestValue v hi,
    extractLsb'_extractLsb'_of_add_le _ (by omega)]

end Sys2Proof.Machine

/-! PROOF. The command word as OP and DATA (30_encoding.md R70, R72, R75, R76). The decoder is said once, in both
directions: it answers a command exactly when the word, but for its ignored bits, is the command's own word
(`decode_eq_command_iff`), and a reserved opcode exactly when OP is in the ranges of R76
(`decode_eq_reserved_iff`). -/

namespace Sys2Proof

open Sys2Proof.Claims

/-! ### Words by their fields -/

/-- A command word is its two fields, `OP ‖ DATA` (R70). -/
theorem rawWord_opField_dataField (w : CmdWord) : rawWord (opField w) (dataField w) = w :=
  BitVec.extractLsb'_append_extractLsb'

theorem rawWord_and (op op' : BitVec 8) (data data' : Word64) :
    rawWord op data &&& rawWord op' data' = rawWord (op &&& op') (data &&& data') :=
  BitVec.and_append

theorem rawWord_eq_iff (op op' : BitVec 8) (data data' : Word64) :
    rawWord op data = rawWord op' data' ↔ op = op' ∧ data = data' := by
  constructor
  · intro h
    exact ⟨by simpa using congrArg opField h, by simpa using congrArg dataField h⟩
  · rintro ⟨rfl, rfl⟩
    rfl

/-! ### The operand bits of DATA -/

/-- The DATA bits the command reads (R73): none, the low `8n` ones of an UPDn, or all. -/
def Instr.operandMask : Instr → Word64
  | .nop | .reset | .digest => 0#64
  | .upd1 _ => (BitVec.allOnes 8).setWidth 64
  | .upd2 _ => (BitVec.allOnes 16).setWidth 64
  | .upd3 _ => (BitVec.allOnes 24).setWidth 64
  | .upd4 _ => (BitVec.allOnes 32).setWidth 64
  | .upd5 _ => (BitVec.allOnes 40).setWidth 64
  | .upd6 _ => (BitVec.allOnes 48).setWidth 64
  | .upd7 _ => (BitVec.allOnes 56).setWidth 64
  | .upd8 _ | .smpl _ => BitVec.allOnes 64

/-- The command reads all of OP and its operand bits of DATA. -/
theorem usedBits_eq_rawWord (i : Instr) : usedBits i = rawWord (BitVec.allOnes 8) i.operandMask := by
  cases i <;> simp only [usedBits, Instr.operandMask] <;> decide

theorem and_usedBits (w : CmdWord) (i : Instr) :
    w &&& usedBits i = rawWord (opField w) (dataField w &&& i.operandMask) := by
  rw [usedBits_eq_rawWord, ← rawWord_opField_dataField w, rawWord_and, BitVec.and_allOnes,
    opField_rawWord, dataField_rawWord]

/-- Clearing all but the low `n` bits of DATA leaves the `n`-bit operand, widened. -/
theorem and_lowOnes (n : Nat) (data : Word64) :
    data &&& (BitVec.allOnes n).setWidth 64 = (data.extractLsb' 0 n).setWidth 64 := by
  ext k hk
  rw [BitVec.getElem_and, BitVec.getElem_setWidth, BitVec.getElem_setWidth, BitVec.getLsbD_allOnes,
    BitVec.getLsbD_extractLsb', Nat.zero_add, BitVec.getLsbD_eq_getElem hk, Bool.and_comm]

theorem extractLsb'_setWidth_of_le {n : Nat} (hn : n ≤ 64) (imm : BitVec n) :
    (imm.setWidth 64).extractLsb' 0 n = imm := by
  rw [← BitVec.setWidth_eq_extractLsb' hn, BitVec.setWidth_setWidth_of_le _ hn, BitVec.setWidth_eq]

theorem extractLsb'_eq_of_and_lowOnes {n : Nat} (hn : n ≤ 64) {data : Word64} {imm : BitVec n}
    (h : data &&& (BitVec.allOnes n).setWidth 64 = imm.setWidth 64) : data.extractLsb' 0 n = imm := by
  rw [and_lowOnes] at h
  rw [← extractLsb'_setWidth_of_le hn imm, ← h, extractLsb'_setWidth_of_le hn]

theorem operand_and_operandMask (i : Instr) : i.operand &&& i.operandMask = i.operand := by
  cases i
  case nop | reset | digest => rfl
  case upd8 imm | smpl imm => exact BitVec.and_allOnes
  all_goals
    rw [Instr.operand, Instr.operandMask, and_lowOnes, extractLsb'_setWidth_of_le (by decide)]

/-- R75: the encoder writes every ignored bit as 0. -/
theorem encode_and_usedBits (i : Instr) : encode i &&& usedBits i = encode i := by
  rw [and_usedBits, opField_encode, dataField_encode, operand_and_operandMask, encode]

/-! ### The decoder -/

/-- What a word may be read as (R78): a command of the block whose own word it is but for the ignored bits, or the
reserved opcode that is its OP. -/
def IsReadingOf (hv : Harvester) (w : CmdWord) : Decoded → Prop
  | .command i => i.wellFormed hv = true ∧ encode i = w &&& usedBits i
  | .reserved op => op = opField w ∧ reservedOp hv (opField w)

theorem isReadingOf_command_iff (hv : Harvester) (w : CmdWord) (i : Instr) :
    IsReadingOf hv w (.command i) ↔
      i.wellFormed hv = true ∧ opField w = i.opcode ∧ dataField w &&& i.operandMask = i.operand := by
  rw [IsReadingOf, and_usedBits, encode, rawWord_eq_iff, eq_comm (a := i.opcode), eq_comm (a := i.operand)]

/-- Down the decoder's chain of opcodes: each branch reads its own command, and OPs that pass them all are those of
R76. -/
theorem decode_isReadingOf (hv : Harvester) (w : CmdWord) : IsReadingOf hv w (decode hv w) := by
  unfold decode
  iterate 3
    refine iteInduction (fun hop => (isReadingOf_command_iff ..).2 ⟨rfl, hop, BitVec.and_zero⟩) fun _ => ?_
  iterate 7
    refine iteInduction (fun hop => (isReadingOf_command_iff ..).2 ⟨rfl, hop, and_lowOnes _ _⟩) fun _ => ?_
  refine iteInduction (fun hop => (isReadingOf_command_iff ..).2 ⟨rfl, hop, BitVec.and_allOnes⟩) fun _ => ?_
  refine iteInduction
    (fun ⟨hop, hpresent⟩ => (isReadingOf_command_iff ..).2 ⟨decide_eq_true hpresent, hop, BitVec.and_allOnes⟩)
    fun hsmpl => ⟨rfl, ?_⟩
  unfold reservedOp
  cases hv <;> simp only [reduceCtorEq, and_true, and_false, or_false] at hsmpl ⊢ <;> bv_omega

/-- The only command a word can be read as is the one the decoder answers: OP selects its branch. -/
theorem decode_eq_command {hv : Harvester} {w : CmdWord} {i : Instr}
    (h : IsReadingOf hv w (.command i)) : decode hv w = .command i := by
  obtain ⟨hwf, hop, hdata⟩ := (isReadingOf_command_iff hv w i).1 h
  cases i
  case nop | reset | digest => simp [decode, hop, Instr.opcode]
  case upd8 imm =>
    have himm : dataField w = imm := BitVec.and_allOnes.symm.trans hdata
    simp [decode, hop, Instr.opcode, himm]
  case smpl data =>
    have hdata' : dataField w = data := BitVec.and_allOnes.symm.trans hdata
    obtain rfl : hv = .present := of_decide_eq_true hwf
    simp [decode, hop, Instr.opcode, hdata']
  all_goals
    have himm := extractLsb'_eq_of_and_lowOnes (by decide) hdata
    simp [decode, hop, Instr.opcode, himm]

theorem decode_eq_command_iff (hv : Harvester) (w : CmdWord) (i : Instr) :
    decode hv w = .command i ↔ i.wellFormed hv = true ∧ encode i = w &&& usedBits i :=
  ⟨fun h => (h ▸ decode_isReadingOf hv w : IsReadingOf hv w (.command i)), decode_eq_command⟩

/-- R76: no command of the block has a reserved OP. -/
theorem not_reservedOp_opcode {hv : Harvester} {i : Instr} (hwf : i.wellFormed hv = true) :
    ¬ reservedOp hv i.opcode := by
  unfold reservedOp
  cases i
  case smpl =>
    obtain rfl : hv = .present := of_decide_eq_true hwf
    simp [Instr.opcode]
  all_goals simp [Instr.opcode]

/-- R76, R78: what the decoder answers for a word, told from its OP alone. -/
theorem decode_eq_reserved_iff (hv : Harvester) (w : CmdWord) :
    decode hv w = .reserved (opField w) ↔ reservedOp hv (opField w) := by
  have hreads := decode_isReadingOf hv w
  cases hd : decode hv w with
  | command i =>
    obtain ⟨hwf, hop, -⟩ := (isReadingOf_command_iff hv w i).1 (hd ▸ hreads)
    simpa [hop] using not_reservedOp_opcode hwf
  | reserved op =>
    rw [hd] at hreads
    obtain ⟨rfl, hres⟩ := hreads
    simpa using hres

namespace Machine

theorem performWord_of_command {w : CmdWord} {s : State} {i : Instr}
    (h : decode s.params.harvester w = .command i) : performWord w s = exec i s := by
  rw [performWord, h]

theorem performWord_of_reserved {w : CmdWord} {s : State} {op : BitVec 8}
    (h : decode s.params.harvester w = .reserved op) : performWord w s = .next (withError s 0b01#2) := by
  rw [performWord, h, raiseError_eq]
  rfl

/-- Settles O3: a word decodes to `i` exactly when its used bits are the command's own word, so words that agree in
those decode alike, and `performWord` sees a word only through its decoding. -/
theorem ignoredBitsHaveNoEffect : Obligations.IgnoredBitsHaveNoEffect := by
  unfold Obligations.IgnoredBitsHaveNoEffect
  refine ⟨fun s w w' i hdec hused => ?_, encode_and_usedBits⟩
  have hdec' : decode s.params.harvester w' = .command i := by
    rwa [decode_eq_command_iff, ← hused, ← decode_eq_command_iff]
  exact ⟨hdec', (performWord_of_command hdec').trans (performWord_of_command hdec).symm⟩

/-- Settles O4: the decoder reserves exactly the OPs of R76, and a reserved word is performed as `raise`, whose
effect is `withError`. -/
theorem reservedWordsRaiseErrReserved : Obligations.ReservedWordsRaiseErrReserved := by
  unfold Obligations.ReservedWordsRaiseErrReserved
  constructor
  · intro w s hres
    have hdec := (decode_eq_reserved_iff s.params.harvester w).2 hres
    exact ⟨hdec, performWord_of_reserved hdec⟩
  · intro hv w hnot
    cases hd : decode hv w with
    | command i => exact ⟨i, rfl⟩
    | reserved op =>
      obtain ⟨-, hres⟩ : IsReadingOf hv w (.reserved op) := hd ▸ decode_isReadingOf hv w
      exact absurd hres hnot

end Machine

end Sys2Proof

/-! PROOF. Compression (40_compression.md). The schedule is said once through its own next-word function: past the
words it starts from, each word of `extendSchedule` is the next word of those before it
(`extendSchedule_getD_eq_next`). The rounds are `roundsUpTo`, whichever datapath feeds them their words. -/

namespace Sys2Proof.Machine

open Sys2Proof.Claims

/-! ### Message schedule (R109) -/

/-- The first words of an extended schedule are the words it starts from. -/
theorem take_extendSchedule (n : Nat) (ws : List Word) : (extendSchedule n ws).take ws.length = ws := by
  induction n generalizing ws with
  | zero => exact List.take_length
  | succ n ih =>
    have hone := congrArg (List.take ws.length) (ih (ws ++ [nextScheduleWord ws]))
    simpa [extendSchedule, List.take_take] using hone

/-- Later extensions do not touch the word, so it is what `nextScheduleWord` made of the words before it. -/
theorem extendSchedule_getD_eq_next (n : Nat) (ws : List Word) {t : Nat} (hle : ws.length ≤ t)
    (hlt : t < ws.length + n) :
    (extendSchedule n ws).getD t 0 = nextScheduleWord ((extendSchedule n ws).take t) := by
  induction n generalizing ws with
  | zero => omega
  | succ n ih =>
    obtain rfl | hgt := hle.eq_or_lt
    · rw [take_extendSchedule, extendSchedule, extendSchedule_getD_of_lt _ _ _ (by simp)]
      simp
    · exact ih _ (by simpa using hgt) (by simp; omega)

/-- The recurrence reads the last 16 words before `t` from the whole list. -/
theorem nextScheduleWord_take (ws : List Word) {t : Nat} (h16 : 16 ≤ t) (ht : t ≤ ws.length) :
    nextScheduleWord (ws.take t) =
      smallSigma1 (ws.getD (t - 2) 0) + ws.getD (t - 7) 0 + smallSigma0 (ws.getD (t - 15) 0) +
        ws.getD (t - 16) 0 := by
  have hread (k : Nat) (hk : 0 < k) : (ws.take t).getD (t - k) 0 = ws.getD (t - k) 0 := by
    simp only [List.getD_eq_getElem?_getD, List.getElem?_take_of_lt (show t - k < t by omega)]
  simp only [nextScheduleWord, List.length_take_of_le ht]
  rw [hread 2, hread 7, hread 15, hread 16] <;> decide

theorem firstWords_getD (blk : Block) (t : Fin 16) : (firstWords blk).getD t.val 0 = loadWord blk t := by
  simp [firstWords]

theorem schedule_getD_eq_loadWord (blk : Block) (t : Fin 16) :
    (schedule blk).getD t.val 0 = loadWord blk t := by
  rw [schedule, extendSchedule_getD_of_lt _ _ _ (by simp), firstWords_getD]

theorem schedule_getD_eq_next (blk : Block) {t : Nat} (h16 : 16 ≤ t) (h64 : t < 64) :
    (schedule blk).getD t 0 = nextScheduleWord ((schedule blk).take t) :=
  extendSchedule_getD_eq_next 48 (firstWords blk) (by simpa using h16) (by simpa using h64)

/-- Settles O28: the first 16 words are the loaded ones, and each later one is the next word of those before it. -/
theorem scheduleFollowsTheRecurrence : Obligations.ScheduleFollowsTheRecurrence := by
  unfold Obligations.ScheduleFollowsTheRecurrence
  intro blk
  refine ⟨schedule_length blk, schedule_getD_eq_loadWord blk, fun t h16 h64 => ?_⟩
  rw [schedule_getD_eq_next blk h16 h64, nextScheduleWord_take _ h16 (by simp; omega)]

/-! ### Rounds (R110, R111) and the unrolled datapath (R113) -/

theorem roundsUpTo_succ (ws : List Word) (n : Nat) (v : HashWords) :
    roundsUpTo ws (n + 1) v = sha256Round n (roundsUpTo ws n v) (ws.getD n 0) := rfl

theorem range_zip_eq_map (ws : List Word) {n : Nat} (hn : n ≤ ws.length) :
    (List.range n).zip ws = (List.range n).map fun t => (t, ws.getD t 0) := by
  refine List.ext_getElem (by simpa using hn) fun t ht _ => ?_
  have hlt : t < ws.length := by simp at ht; omega
  simp [hlt]

/-- A row of round copies, copy `t` wired to its number and to word `t`, is the rounds in sequence. -/
theorem foldl_unrolledStage (ws : List Word) (v : HashWords) (n : Nat) :
    ((List.range n).map fun t => (t, ws.getD t 0)).foldl unrolledStage v = roundsUpTo ws n v := by
  induction n with
  | zero => rfl
  | succ n ih =>
    rw [List.range_succ, List.map_append, List.foldl_append, ih]
    rfl

/-- Settles O27: the vectors are `roundsUpTo`, whose step is the round function of R110. -/
theorem compressIsSixtyFourRounds : Obligations.CompressIsSixtyFourRounds := by
  unfold Obligations.CompressIsSixtyFourRounds
  intro hv blk
  refine ⟨fun t => roundsUpTo (schedule blk) t hv, rfl, fun t _ => ?_, rfl⟩
  simp only [roundsUpTo_succ]
  exact ⟨rfl, rfl, rfl, rfl, rfl, rfl, rfl, rfl⟩

/-- Settles O30: the 64 copies meet the 64 schedule words one to one, so they are the 64 rounds of COMPRESS. -/
theorem unrolledDatapathIsCompress : Obligations.UnrolledDatapathIsCompress := by
  unfold Obligations.UnrolledDatapathIsCompress
  intro hv blk
  rw [unrolled, range_zip_eq_map _ (schedule_length blk).ge, foldl_unrolledStage, compress]

/-! ### Word functions (R100 to R102) -/

theorem getLsbD_ch (x y z : Word) (i : Nat) :
    (ch x y z).getLsbD i = if x.getLsbD i then y.getLsbD i else z.getLsbD i := by
  by_cases hi : i < 32
  · simp only [ch, BitVec.getLsbD_xor, BitVec.getLsbD_and, BitVec.getLsbD_not, hi, decide_true, Bool.true_and]
    cases x.getLsbD i <;> simp
  · simp [BitVec.getLsbD_of_ge _ i (by omega : 32 ≤ i)]

theorem getLsbD_maj (x y z : Word) (i : Nat) :
    (maj x y z).getLsbD i =
      decide (2 ≤ (x.getLsbD i).toNat + (y.getLsbD i).toNat + (z.getLsbD i).toNat) := by
  simp only [maj, BitVec.getLsbD_xor, BitVec.getLsbD_and]
  generalize x.getLsbD i = bx, y.getLsbD i = cy, z.getLsbD i = bz
  revert bx cy bz
  decide

/-- The right shift gives the bits below `32 − n`, the left shift those from `32 − n` on. -/
theorem getLsbD_rotr (x : Word) {n i : Nat} (h0 : 0 < n) (hn : n < 32) (hi : i < 32) :
    (rotr x n).getLsbD i = x.getLsbD ((i + n) % 32) := by
  simp only [rotr, BitVec.getLsbD_or, BitVec.getLsbD_ushiftRight, BitVec.getLsbD_shiftLeft]
  rcases Nat.lt_or_ge (i + n) 32 with hlow | hhigh
  · have hno : i < 32 - n := by omega
    simp [hno, Nat.mod_eq_of_lt hlow, Nat.add_comm n i]
  · have hpos : (i + n) % 32 = i - (32 - n) := by omega
    have hge : ¬ i < 32 - n := by omega
    rw [hpos, BitVec.getLsbD_of_ge x (n + i) (by omega)]
    simp [hi, hge]

/-- Settles O25, one law for each function. -/
theorem wordFunctionsAreBitwise : Obligations.WordFunctionsAreBitwise := by
  unfold Obligations.WordFunctionsAreBitwise
  exact ⟨getLsbD_ch, getLsbD_maj, fun x n i h0 hn hi => getLsbD_rotr x h0 hn hi⟩

/-! ### Constants (R107, R108) -/

/-- Below 18² a divisor below 18 is enough: of a divisor and its cofactor one is. -/
theorem forall_mod_ne_zero_iff {n : Nat} (hn : n < 324) :
    (∀ m < n, 2 ≤ m → n % m ≠ 0) ↔ ∀ m < 18, m < n → 2 ≤ m → n % m ≠ 0 := by
  refine ⟨fun h m _ => h m, fun h m hm h2 hmod => ?_⟩
  obtain ⟨k, rfl⟩ := Nat.dvd_of_mod_eq_zero hmod
  have hk2 : 2 ≤ k := (Nat.lt_mul_iff_one_lt_right (by omega)).1 hm
  rcases Nat.lt_or_ge m 18 with hlt | hge
  · exact h m hlt hm h2 hmod
  · exact h k (by nlinarith) (by nlinarith) hk2 (Nat.mul_mod_left m k)

theorem primes_eq_filter_trialDivision : primes =
    (List.range 312).filter fun n => decide (2 ≤ n ∧ ∀ m < 18, m < n → 2 ≤ m → n % m ≠ 0) := by
  refine List.filter_congr fun n hn => ?_
  have hlt : n < 324 := by simp at hn; omega
  exact decide_eq_decide.2 (and_congr_right fun _ => forall_mod_ne_zero_iff hlt)

theorem primes_eq : primes =
    [2, 3, 5, 7, 11, 13, 17, 19, 23, 29, 31, 37, 41, 43, 47, 53, 59, 61, 67, 71, 73, 79, 83, 89, 97, 101, 103,
      107, 109, 113, 127, 131, 137, 139, 149, 151, 157, 163, 167, 173, 179, 181, 191, 193, 197, 199, 211, 223,
      227, 229, 233, 239, 241, 251, 257, 263, 269, 271, 277, 281, 283, 293, 307, 311] := by
  rw [primes_eq_filter_trialDivision]
  decide +kernel

/-- The number with integer part `⌊p^(1/e)⌋` (below 18) and fraction bits `w`, in units of `2^-32`: the
integer root of `p · 2^(32e)` when `w` holds the leading fraction bits of the `e`-th root of `p`. -/
def scaledRoot (e p : Nat) (w : Word) : Nat := Nat.findGreatest (fun c => c ^ e ≤ p) 17 * 2 ^ 32 + w.toNat

theorem scaledRoot_mod (e p : Nat) (w : Word) : scaledRoot e p w % 2 ^ 32 = w.toNat := by
  rw [scaledRoot, Nat.mul_add_mod_self_right, Nat.mod_eq_of_lt w.isLt]

theorem ivList_scaledRoot_bounds : ∀ i < 8,
    let r := scaledRoot 2 (primes.getD i 0) (ivList.getD i 0)
    r * r ≤ primes.getD i 0 * 2 ^ 64 ∧ primes.getD i 0 * 2 ^ 64 < (r + 1) * (r + 1) := by
  rw [primes_eq]
  decide

theorem roundConst_scaledRoot_bounds : ∀ t < 64,
    let r := scaledRoot 3 (primes.getD t 0) (roundConst t)
    r ^ 3 ≤ primes.getD t 0 * 2 ^ 96 ∧ primes.getD t 0 * 2 ^ 96 < (r + 1) ^ 3 := by
  rw [primes_eq]
  decide

/-- Settles O26: with the integer part of the root put above it, each word of the tables is the integer root of the
scaled prime, by its two bounds; modulo 2^32 the integer part drops out and the word is left. -/
theorem constantsAreRootsOfPrimes : Obligations.ConstantsAreRootsOfPrimes := by
  unfold Obligations.ConstantsAreRootsOfPrimes
  refine ⟨fun i hi => ?_, by rw [primes_eq]; rfl, fun t ht => ?_⟩
  · rw [← Nat.eq_sqrt.2 (ivList_scaledRoot_bounds i hi), scaledRoot_mod]
  · obtain ⟨hlo, hhi⟩ := roundConst_scaledRoot_bounds t ht
    exact ⟨_, hlo, hhi, (scaledRoot_mod _ _ _).symm⟩

end Sys2Proof.Machine

/-! PROOF. NOP, RESET and DIGEST (41_hash_commands.md R140, R141, R151, R152). The padding writes of `finalHash` are
read byte by byte: they leave exactly the blocks the statements write out. -/

namespace Sys2Proof.Machine

open Sys2Proof.Claims

/-! ### The three commands without an operand -/

theorem exec_nop (s : State) : exec .nop s = .next s := rfl

theorem exec_reset (s : State) : exec .reset s = .next (resetContext s) := rfl

theorem exec_digest (s : State) :
    exec .digest s = .next (resetContext (emit .host (digestValue (finalHash s)) s)) := rfl

theorem resetContext_atCtx0 (s : State) : (resetContext s).atCtx0 :=
  ⟨resetContext_h s, resetContext_fill s, resetContext_bitcnt s⟩

theorem decode_rawWord_nop (hv : Harvester) (data : Word64) : decode hv (rawWord 0x00#8 data) = .command .nop :=
  decode_eq_command ((isReadingOf_command_iff ..).2 ⟨rfl, opField_rawWord _ _, BitVec.and_zero⟩)

/-- Settles O13: whatever DATA is, the word decodes to NOP. -/
theorem nopChangesNothing : Obligations.NopChangesNothing := by
  unfold Obligations.NopChangesNothing
  refine ⟨exec_nop, fun data s => ?_⟩
  rw [performWord_of_command (decode_rawWord_nop _ data), exec_nop]

/-- Settles O14: the command is `resetContext`, read field by field. -/
theorem resetReturnsTheContext : Obligations.ResetReturnsTheContext := by
  unfold Obligations.ResetReturnsTheContext
  exact fun s => ⟨resetContext s, exec_reset s, resetContext_atCtx0 s, resetContext_out s,
    ⟨resetContext_err s, resetContext_cause s⟩,
    ⟨resetContext_win s, resetContext_ns s, resetContext_sum s⟩,
    ⟨resetContext_params s, resetContext_inbox s⟩⟩

/-! ### The padding blocks of FINAL (R151) -/

/-- The block with 0x80 behind its message bytes and zeros from there to `hi`. -/
theorem getElem_zeroRange_set_fill (s : State) (hi : Nat) {j : Nat} (hj : j < 64) :
    (zeroRange (s.fill.val + 1) hi (s.buf.set s.fill.val 0x80#8))[j] =
      if j < s.fill.val then s.buf[j] else if j = s.fill.val then 0x80#8
      else if j < hi then 0x00#8 else s.buf[j] := by
  rw [getElem_zeroRange, Vector.getElem_set]
  rcases Nat.lt_trichotomy j s.fill.val with hlt | heq | hgt
  · simp [hlt, hlt.ne', hlt.not_gt]
  · simp [heq]
  · simp [hgt, hgt.ne, hgt.ne', hgt.not_gt]

theorem zeroRange_set_fill_eq_extraPadBlock (s : State) :
    zeroRange (s.fill.val + 1) 64 (s.buf.set s.fill.val 0x80#8) = extraPadBlock s := by
  refine Vector.ext fun j hj => ?_
  rw [getElem_zeroRange_set_fill, if_pos hj, extraPadBlock, Vector.getElem_ofFn]
  rfl

theorem putLength_zeroRange_set_fill_eq_onePadBlock (s : State) (len : Word64) (hfit : s.fill.val < 56) :
    putLength len (zeroRange (s.fill.val + 1) 56 (s.buf.set s.fill.val 0x80#8)) = onePadBlock s len := by
  refine Vector.ext fun j hj => ?_
  rw [getElem_putLength, getElem_zeroRange_set_fill, onePadBlock, Vector.getElem_ofFn]
  rcases Nat.lt_or_ge j 56 with hlow | hhigh
  · simp [hlow, hlow.not_ge]
  · have hlast : s.fill.val < j := hfit.trans_le hhigh
    simp [hhigh, hhigh.not_gt, hlast.ne', hlast.not_gt, lengthByte]

theorem putLength_zeroRange_eq_lengthBlock (len : Word64) (blk : Block) :
    putLength len (zeroRange 0 56 blk) = lengthBlock len := by
  refine Vector.ext fun j hj => ?_
  rw [getElem_putLength, getElem_zeroRange, lengthBlock, Vector.getElem_ofFn]
  rcases Nat.lt_or_ge j 56 with hlow | hhigh
  · simp [hlow, hlow.not_ge]
  · simp [hhigh, hhigh.not_gt, lengthByte]

/-- FILL ≤ 55: 0x80 and the length fit behind the message bytes. -/
theorem finalHash_of_fits (s : State) (hfit : s.fill.val < 56) :
    finalHash s = compress s.h (onePadBlock s (messageBits s)) := by
  rw [← putLength_zeroRange_set_fill_eq_onePadBlock s _ hfit, finalHash, if_pos hfit]

/-- FILL ≥ 56: the length goes to a block of its own. -/
theorem finalHash_of_overflows (s : State) (hfull : ¬ s.fill.val < 56) :
    finalHash s = compress (compress s.h (extraPadBlock s)) (lengthBlock (messageBits s)) := by
  rw [← zeroRange_set_fill_eq_extraPadBlock, ← putLength_zeroRange_eq_lengthBlock, finalHash, if_neg hfull]

/-- Settles O16: the final H is `finalHash`, whose blocks are those of R151; the rest is `resetContext` after
`emit`. -/
theorem digestPadsEmitsAndResets : Obligations.DigestPadsEmitsAndResets := by
  unfold Obligations.DigestPadsEmitsAndResets
  intro s
  refine ⟨_, finalHash s, exec_digest s, fun hle => finalHash_of_fits s (Nat.lt_succ_of_le hle),
    fun hge => finalHash_of_overflows s (Nat.not_lt_of_le hge), ?_, resetContext_atCtx0 _, ?_⟩
  · rw [resetContext_out, emit_out, digestValue]
  · simp [State.sameErrors, State.sameHarvester, State.sameHost]

end Sys2Proof.Machine

/-! PROOF. The two halves of the block (41_hash_commands.md R158). A hash command is a RESET, a DIGEST or an absorption
of its bytes, and each of the three sees a state through the defined part of its context only. -/

namespace Sys2Proof.Machine

open Sys2Proof.Claims

/-! ### Commands by what they do -/

/-- Every hash command but RESET and DIGEST absorbs the bytes it supplies (R142); NOP supplies none. -/
theorem hashCommand_cases {i : Instr} (hhash : isHashCommand i = true) :
    i = .reset ∨ i = .digest ∨ ∀ s, exec i s = .next (absorbAll (messageBytes i) s) := by
  cases i
  case reset => exact .inl rfl
  case digest => exact .inr (.inl rfl)
  case smpl => cases hhash
  all_goals exact .inr (.inr fun _ => rfl)

theorem exec_smpl_of_present (data : Word64) {s : State} (hp : s.params.harvester = .present) :
    exec (.smpl data) s = .next (takeSample (sint64 data) s) := by
  simp only [exec, execSmpl, hp]

theorem exec_smpl_of_absent (data : Word64) {s : State} (ha : s.params.harvester = .absent) :
    exec (.smpl data) s = .next (raiseError .reserved s) := by
  simp only [exec, execSmpl, ha]

/-! ### The defined part of the hash context -/

/-- Two states hold the same hash context but for the bytes of BUF at and beyond FILL, which hold no defined value
(R22). -/
structure State.AgreesInContext (s t : State) : Prop where
  h : s.h = t.h
  fill : s.fill = t.fill
  bitcnt : s.bitcnt = t.bitcnt
  buf : ∀ j : Fin 64, j.val < s.fill.val → s.buf[j] = t.buf[j]

namespace State.AgreesInContext

variable {s t : State}

theorem messageBits_eq (hc : s.AgreesInContext t) : messageBits s = messageBits t := by
  rw [messageBits, messageBits, hc.fill, hc.bitcnt]

/-- A byte written at FILL joins the defined part. -/
theorem getElem_set_fill (hc : s.AgreesInContext t) (v : Byte) {j : Nat} (hj : j < 64) (hle : j ≤ s.fill.val) :
    (s.buf.set s.fill.val v)[j] = (t.buf.set t.fill.val v)[j] := by
  rw [Vector.getElem_set, Vector.getElem_set, ← hc.fill]
  split
  · rfl
  · next hne => exact hc.buf ⟨j, hj⟩ (hle.lt_of_ne' hne)

theorem absorb (hc : s.AgreesInContext t) (v : Byte) : (absorb v s).AgreesInContext (absorb v t) := by
  by_cases hlt : s.fill.val + 1 < 64
  · rw [absorb_of_lt v s hlt, absorb_of_lt v t (hc.fill ▸ hlt)]
    refine ⟨hc.h, Fin.ext (congrArg (·.val + 1) hc.fill), hc.bitcnt, fun j hj => ?_⟩
    exact hc.getElem_set_fill v j.isLt (Nat.le_of_lt_succ hj)
  · have hblock : s.buf.set s.fill.val v = t.buf.set t.fill.val v :=
      Vector.ext fun j hj => hc.getElem_set_fill v hj (by omega)
    rw [absorb_of_full v s hlt, absorb_of_full v t (hc.fill ▸ hlt), hblock, hc.h, hc.bitcnt]
    exact ⟨rfl, rfl, rfl, fun j hj => absurd hj (Nat.not_lt_zero _)⟩

theorem absorbAll (hc : s.AgreesInContext t) (bytes : List Byte) :
    (absorbAll bytes s).AgreesInContext (absorbAll bytes t) := by
  induction bytes generalizing s t with
  | nil => exact hc
  | cons v rest ih => exact ih (hc.absorb v)

theorem ofFn_buf_eq (hc : s.AgreesInContext t) (rest : Fin 64 → Byte) :
    (Vector.ofFn fun j => if j.val < s.fill.val then s.buf[j] else rest j) =
      Vector.ofFn fun j => if j.val < s.fill.val then t.buf[j] else rest j :=
  congrArg Vector.ofFn (funext fun j => ite_congr rfl (hc.buf j) fun _ => rfl)

theorem onePadBlock_eq (hc : s.AgreesInContext t) (len : Word64) : onePadBlock s len = onePadBlock t len := by
  rw [onePadBlock, onePadBlock, ← hc.fill]
  exact hc.ofFn_buf_eq _

theorem extraPadBlock_eq (hc : s.AgreesInContext t) : extraPadBlock s = extraPadBlock t := by
  rw [extraPadBlock, extraPadBlock, ← hc.fill]
  exact hc.ofFn_buf_eq _

/-- DIGEST reads the defined part only: the padding overwrites the other bytes of BUF. -/
theorem finalHash_eq (hc : s.AgreesInContext t) : finalHash s = finalHash t := by
  by_cases hfit : s.fill.val < 56
  · rw [finalHash_of_fits s hfit, finalHash_of_fits t (hc.fill ▸ hfit), hc.h, hc.messageBits_eq,
      hc.onePadBlock_eq]
  · rw [finalHash_of_overflows s hfit, finalHash_of_overflows t (hc.fill ▸ hfit), hc.h, hc.messageBits_eq,
      hc.extraPadBlock_eq]

end State.AgreesInContext

theorem resetContext_agreesInContext (s t : State) : (resetContext s).AgreesInContext (resetContext t) :=
  ⟨rfl, rfl, rfl, fun _ hj => absurd hj (Nat.not_lt_zero _)⟩

/-! ### Each half by itself (R158) -/

/-- A hash command leaves the harvester as it is; the context it leaves and the records it makes are the same from two
states with the same context. -/
theorem exec_hashCommand_agrees {i : Instr} {s₁ s₂ t₁ t₂ : State} (hhash : isHashCommand i = true)
    (hc : s₁.AgreesInContext s₂) (h₁ : exec i s₁ = .next t₁) (h₂ : exec i s₂ = .next t₂) :
    t₁.sameHarvester s₁ ∧ t₁.AgreesInContext t₂ ∧ ∃ rs, t₁.out = s₁.out ++ rs ∧ t₂.out = s₂.out ++ rs := by
  rcases hashCommand_cases hhash with rfl | rfl | habs
  · cases h₁
    cases h₂
    exact ⟨⟨rfl, rfl, rfl⟩, resetContext_agreesInContext _ _, [], by simp⟩
  · cases h₁
    cases h₂
    refine ⟨⟨rfl, rfl, rfl⟩, resetContext_agreesInContext _ _, ?_⟩
    rw [hc.finalHash_eq]
    exact ⟨_, rfl, rfl⟩
  · obtain rfl := Host.Outcome.next.inj ((habs s₁).symm.trans h₁)
    obtain rfl := Host.Outcome.next.inj ((habs s₂).symm.trans h₂)
    obtain ⟨-, -, -, hwin, hns, hsum, hout₁, -⟩ := absorbAll_frame (messageBytes i) s₁
    obtain ⟨-, -, -, -, -, -, hout₂, -⟩ := absorbAll_frame (messageBytes i) s₂
    exact ⟨⟨hwin, hns, hsum⟩, hc.absorbAll _, [], by simp [hout₁, hout₂]⟩

/-- What a sample does to WIN, NS and SUM and the record it makes depend on the parameters and those alone. -/
theorem takeSample_agrees (d : Int) {s₁ s₂ : State} (hp : s₁.params = s₂.params) (hh : s₁.sameHarvester s₂) :
    (takeSample d s₁).sameHarvester (takeSample d s₂) ∧
      ∃ rs, (takeSample d s₁).out = s₁.out ++ rs ∧ (takeSample d s₂).out = s₂.out ++ rs := by
  obtain ⟨hwin, hns, hsum⟩ := hh
  by_cases hover : s₁.ns = BitVec.allOnes 64
  · rw [takeSample_of_overflow d s₁ hover, takeSample_of_overflow d s₂ (hns ▸ hover)]
    exact ⟨by simp [State.sameHarvester, hwin, hns, hsum], [], by simp⟩
  · obtain ⟨w₁, hw₁, heq₁⟩ := takeSample_of_ne d s₁ hover
    obtain ⟨w₂, hw₂, heq₂⟩ := takeSample_of_ne d s₂ (hns ▸ hover)
    obtain rfl : w₁ = w₂ := by rw [hw₁, hw₂, hp, hwin, hns, hsum]
    rw [heq₁, heq₂]
    exact ⟨⟨rfl, congrArg (· + 1#64) hns, congrArg (· + d) hsum⟩, _, rfl, rfl⟩

theorem exec_smpl_agrees {data : Word64} {s₁ s₂ t₁ t₂ : State} (hp : s₁.params = s₂.params)
    (hh : s₁.sameHarvester s₂) (h₁ : exec (.smpl data) s₁ = .next t₁) (h₂ : exec (.smpl data) s₂ = .next t₂) :
    t₁.sameContext s₁ ∧ t₁.sameHarvester t₂ ∧ ∃ rs, t₁.out = s₁.out ++ rs ∧ t₂.out = s₂.out ++ rs := by
  cases hv : s₁.params.harvester with
  | present =>
    rw [exec_smpl_of_present data hv] at h₁
    rw [exec_smpl_of_present data (hp ▸ hv)] at h₂
    cases h₁
    cases h₂
    obtain ⟨-, hchain, hbuf, hfill, hbitcnt, -, -⟩ := takeSample_frame (sint64 data) s₁
    exact ⟨⟨hchain, hbuf, hfill, hbitcnt⟩, takeSample_agrees _ hp hh⟩
  | absent =>
    rw [exec_smpl_of_absent data hv] at h₁
    rw [exec_smpl_of_absent data (hp ▸ hv)] at h₂
    cases h₁
    cases h₂
    exact ⟨by simp [State.sameContext], by simpa [State.sameHarvester] using hh, [], by simp⟩

/-- Settles O23: one law for the hash commands and one for SMPL. -/
theorem hashContextAndHarvesterAreIndependent : Obligations.HashContextAndHarvesterAreIndependent := by
  unfold Obligations.HashContextAndHarvesterAreIndependent
  refine ⟨fun i s₁ s₂ t₁ t₂ hhash hh hfill hbitcnt hbuf h₁ h₂ => ?_,
    fun data s₁ s₂ t₁ t₂ hp hh h₁ h₂ => exec_smpl_agrees hp hh h₁ h₂⟩
  obtain ⟨hharv, hc, hrecords⟩ := exec_hashCommand_agrees hhash ⟨hh, hfill, hbitcnt, hbuf⟩ h₁ h₂
  exact ⟨hharv, hc.h, hc.fill, hc.bitcnt, hc.buf, hrecords⟩

end Sys2Proof.Machine

/-! PROOF. The renderings HEX and BIN of a digest (41_hash_commands.md R153, R154). Each is read character by
character; BIN falls apart into the four characters of each nibble, the nibble that the digit of HEX shows. -/

namespace Sys2Proof.Machine

open Sys2Proof.Claims

@[simp] theorem hexString_length (d : DigestWord) : (hexString d).length = 64 := by simp [hexString]

@[simp] theorem binString_length (d : DigestWord) : (binString d).length = 256 := by simp [binString]

theorem getD_hexString (d : DigestWord) {i : Nat} (hi : i < 64) :
    (hexString d).getD i ' ' = hexDigit (d.extractLsb' (252 - 4 * i) 4) := by
  simp [hexString, hi]

theorem getD_binString (d : DigestWord) {i : Nat} (hi : i < 256) :
    (binString d).getD i ' ' = bitChar (d.getLsbD (255 - i)) := by
  simp [binString, hi]

theorem hexDigit_mem_hexDigits (n : BitVec 4) : hexDigit n ∈ hexDigits := by
  revert n
  decide

@[simp] theorem hexValue_hexDigit (n : BitVec 4) : hexValue (hexDigit n) = n := by
  revert n
  decide

/-- The four digits of a nibble of D are the four bits of D in it. -/
theorem nibbleString_extractLsb' (d : DigestWord) {i : Nat} (hi : i < 64) :
    nibbleString (d.extractLsb' (252 - 4 * i) 4) =
      (List.range 4).map fun k => bitChar (d.getLsbD (255 - (i * 4 + k))) := by
  refine List.map_congr_left fun k hk => ?_
  have hk4 : k < 4 := List.mem_range.1 hk
  have hbit : 252 - 4 * i + (3 - k) = 255 - (i * 4 + k) := by omega
  rw [BitVec.getLsbD_extractLsb', hbit, decide_eq_true (by omega), Bool.true_and]

/-- A range of `n` groups of `m`, group by group. -/
theorem map_range_mul {α : Type} (f : Nat → α) (n m : Nat) :
    (List.range (n * m)).map f = (List.range n).flatMap fun i => (List.range m).map fun k => f (i * m + k) := by
  induction n with
  | zero => simp
  | succ n ih => simp [Nat.succ_mul, List.range_add, List.range_succ, ih, Function.comp_def]

theorem binString_eq_flatMap (d : DigestWord) :
    binString d = (hexString d).flatMap fun c => nibbleString (hexValue c) := by
  calc binString d
      = (List.range 64).flatMap fun i => (List.range 4).map fun k => bitChar (d.getLsbD (255 - (i * 4 + k))) :=
        map_range_mul (fun i => bitChar (d.getLsbD (255 - i))) 64 4
    _ = (List.range 64).flatMap fun i => nibbleString (d.extractLsb' (252 - 4 * i) 4) :=
        List.flatMap_congr fun i hi => (nibbleString_extractLsb' d (List.mem_range.1 hi)).symm
    _ = (hexString d).flatMap fun c => nibbleString (hexValue c) := by simp [hexString, List.flatMap_map]

/-- Settles O34: each character of HEX is the digit of its nibble, from which the nibble can be read back. -/
theorem binaryRenderingExpandsHex : Obligations.BinaryRenderingExpandsHex := by
  unfold Obligations.BinaryRenderingExpandsHex
  refine fun d => ⟨hexString_length d, binString_length d, fun c hc => ?_, fun i hi => ?_, fun i hi => ?_,
    binString_eq_flatMap d⟩
  · obtain ⟨i, -, rfl⟩ := List.mem_map.1 hc
    exact hexDigit_mem_hexDigits _
  · rw [getD_hexString d hi, hexValue_hexDigit]
  · rw [getD_binString d hi, bitChar]

end Sys2Proof.Machine

/-! PROOF. The harvester (42_harvester.md). A sample is `takeSample_of_ne` or `takeSample_of_overflow`, read field by
field. A packed byte is the byte with the eight window bits in place, and the padded 64-byte message is the message
block followed by one block of padding. -/

namespace Sys2Proof.Machine

open Sys2Proof.Claims

/-! ### One sample (R181 to R183) -/

theorem toNat_add_one_of_ne_allOnes {n : Word64} (h : n ≠ BitVec.allOnes 64) :
    (n + 1#64).toNat = n.toNat + 1 := by
  rw [BitVec.toNat_ne, BitVec.toNat_allOnes] at h
  bv_omega

theorem meanBit_exact_eq_false_iff (d : Int) (n : Nat) (sum : Int) :
    meanBit .exact d n sum = false ↔ d * (n : Int) < sum := by
  simp [meanBit]

theorem meanBit_hostFloat (d : Int) (n : Nat) (sum : Int) :
    meanBit .hostFloat d n sum = Config.hostFloatMeanBit d n sum := rfl

theorem pushBit_eq_tail (win : List Bool) (bit : Bool) :
    pushBit win bit = (if win.length = 512 then win.tail else win) ++ [bit] := by
  rw [pushBit, winCapacity, List.drop_one]

theorem raiseError_eq_withError (e : ErrorCause) (s : State) : raiseError e s = withError s (causeCode e) :=
  raiseError_eq e s

/-- Settles O35: below the last sample number the new state is the one of `takeSample_of_ne`, with the bit that
MEANBIT decides; at the last one the sample is `raise`, whose effect is `withError`. -/
theorem smplTakesOneSample : Obligations.SmplTakesOneSample := by
  unfold Obligations.SmplTakesOneSample
  constructor
  · intro data s hp hns
    obtain ⟨win, hwin, htake⟩ := takeSample_of_ne data.toInt s hns
    refine ⟨_, meanBit s.params.meanCmp data.toInt (s.ns + 1#64).toNat (s.sum + data.toInt),
      (exec_smpl_of_present data hp).trans (congrArg _ htake), toNat_add_one_of_ne_allOnes hns, rfl,
      fun hexact => ?_, fun hfloat => ?_, hwin.trans (pushBit_eq_tail _ _), fun hfull => ?_, fun hnot => ?_,
      ⟨rfl, rfl, rfl, rfl⟩, ⟨rfl, rfl⟩, ⟨rfl, rfl⟩⟩
    · rw [hexact, meanBit_exact_eq_false_iff]
    · rw [hfloat, meanBit_hostFloat]
    · exact congrArg (s.out ++ ·) (if_pos hfull)
    · exact (congrArg (s.out ++ ·) (if_neg hnot)).trans (List.append_nil _)
  · intro data s hp hns
    rw [exec_smpl_of_present data hp, takeSample_of_overflow _ s hns, raiseError_eq_withError, causeCode]

/-! ### Packing (R184) -/

/-- The weighted sum of R184 is the byte with its bits in place, `WIN[8j]` on top. -/
theorem packByte_eq_ofFnBE (win : List Bool) (j : Nat) :
    packByte win j = BitVec.ofFnBE fun k : Fin 8 => win.getD (8 * j + k.val) false := by
  have hsum : (List.range 8).foldl (fun acc k => acc + (win.getD (8 * j + k) false).toNat * 2 ^ (7 - k)) 0 =
      (BitVec.ofFnBE fun k : Fin 8 => win.getD (8 * j + k.val) false).toNat := by
    simp [Nat.ofBits_succ, List.range_succ]
    omega
  rw [packByte, hsum, BitVec.ofNat_toNat, BitVec.setWidth_eq]

theorem getLsbD_packByte (win : List Bool) (j : Nat) {k : Nat} (hk : k < 8) :
    (packByte win j).getLsbD (7 - k) = win.getD (8 * j + k) false := by
  have hrev : 8 - (7 - k + 1) = k := by omega
  rw [packByte_eq_ofFnBE, BitVec.getLsbD_ofFnBE, dif_pos (by omega), Fin.val_rev, hrev]

/-! ### Whitening (R185) -/

@[simp] theorem blocksOf_nil : blocksOf [] = [] := rfl

theorem blockAt_toList_append_zero (blk : Block) (rest : List Byte) : blockAt (blk.toList ++ rest) 0 = blk := by
  refine Vector.ext fun j hj => ?_
  rw [getElem_blockAt, Nat.mul_zero, Nat.zero_add, List.getD_append _ _ _ _ (by simpa using hj)]
  simp [hj]

theorem blockAt_toList_append_succ (blk : Block) (rest : List Byte) (i : Nat) :
    blockAt (blk.toList ++ rest) (i + 1) = blockAt rest i := by
  refine Vector.ext fun j hj => ?_
  have hpast : 64 * (i + 1) + j = 64 + (64 * i + j) := by omega
  rw [getElem_blockAt, getElem_blockAt, hpast, List.getD_append_right _ _ _ _ (by simp), Vector.length_toList,
    Nat.add_sub_cancel_left]

/-- A byte string splits into blocks one block at a time. -/
theorem blocksOf_toList_append (blk : Block) (rest : List Byte) :
    blocksOf (blk.toList ++ rest) = blk :: blocksOf rest := by
  have hdiv : (blk.toList ++ rest).length / 64 = rest.length / 64 + 1 := by simp
  rw [blocksOf, blocksOf, hdiv, List.range_succ_eq_map, List.map_cons, List.map_map, blockAt_toList_append_zero]
  exact congrArg (blk :: ·) (List.map_congr_left fun i _ => blockAt_toList_append_succ blk rest i)

/-- The block P of R185: the padding behind a message of 64 bytes, with the length 512. -/
def paddingOfOneBlock : Block :=
  Vector.ofFn fun j => if j.val = 0 then 0x80#8 else if j.val = 62 then 0x02#8 else 0x00#8

theorem padMessage_toList (blk : Block) : padMessage blk.toList = blk.toList ++ paddingOfOneBlock.toList := by
  have hpad : [0x80#8] ++ (List.replicate (padZeros 64) 0x00#8 ++ be64bytes (BitVec.ofNat 64 (8 * 64))) =
      paddingOfOneBlock.toList := by decide
  rw [padMessage, Vector.length_toList, ← hpad, List.append_assoc, List.append_assoc]

theorem blocksOf_padMessage_toList (blk : Block) :
    blocksOf (padMessage blk.toList) = [blk, paddingOfOneBlock] := by
  rw [padMessage_toList, blocksOf_toList_append, ← List.append_nil paddingOfOneBlock.toList,
    blocksOf_toList_append, blocksOf_nil]

/-- R185 for every block: the hash of 64 bytes is two compressions. -/
theorem sha256_toList (blk : Block) :
    sha256 blk.toList = digestValue (compress (compress iv blk) paddingOfOneBlock) := by
  rw [sha256, blocksOf_padMessage_toList, chain, List.foldl_cons, List.foldl_cons, List.foldl_nil]

/-- Settles O36: each byte of PACK is a `packByte`, read bit by bit, and PACK(WIN) is a message of one block. -/
theorem whiteningIsTwoCompressions : Obligations.WhiteningIsTwoCompressions := by
  unfold Obligations.WhiteningIsTwoCompressions
  intro win _
  refine ⟨fun j k hk => ?_, sha256_toList (pack win)⟩
  rw [Fin.getElem_fin, getElem_pack win j j.isLt, getLsbD_packByte win j hk]

end Sys2Proof.Machine

/-! PROOF. The errors (60_exceptions.md R210, R211). A word is reserved, a SMPL or a hash command, and of these the hash
commands and a sample that is counted keep ERR and CAUSE. -/

namespace Sys2Proof.Machine

open Sys2Proof.Claims

/-! ### Recording an error (R211) -/

theorem withError_of_err {s : State} (code : BitVec 2) (herr : s.err = true) : withError s code = s := by
  cases s
  obtain rfl := herr
  rfl

/-- Settles O40: `raise` leaves `withError` of the error's code, which writes nothing new over a first error. -/
theorem raiseKeepsTheFirstCause : Obligations.RaiseKeepsTheFirstCause := by
  unfold Obligations.RaiseKeepsTheFirstCause
  exact fun s => ⟨raiseError_eq_withError .reserved s, raiseError_eq_withError .sampleOverflow s,
    fun herr => ⟨withError_of_err _ herr, withError_of_err _ herr⟩⟩

/-! ### Commands that raise no error (R210) -/

theorem exec_hashCommand_sameErrors {i : Instr} {s t : State} (hhash : isHashCommand i = true)
    (h : exec i s = .next t) : t.sameErrors s := by
  rcases hashCommand_cases hhash with rfl | rfl | habs
  · cases h
    exact ⟨resetContext_err s, resetContext_cause s⟩
  · cases h
    exact ⟨resetContext_err _, resetContext_cause _⟩
  · obtain rfl := Host.Outcome.next.inj ((habs s).symm.trans h)
    obtain ⟨-, herr, hcause, -⟩ := absorbAll_frame (messageBytes i) s
    exact ⟨herr, hcause⟩

theorem takeSample_sameErrors (d : Int) {s : State} (hns : s.ns ≠ BitVec.allOnes 64) :
    (takeSample d s).sameErrors s := by
  obtain ⟨win, -, htake⟩ := takeSample_of_ne d s hns
  rw [htake]
  exact ⟨rfl, rfl⟩

/-! ### SMPL by its word -/

theorem eq_smpl_of_not_hashCommand {i : Instr} (hnot : isHashCommand i ≠ true) : ∃ data, i = .smpl data := by
  cases i
  case smpl data => exact ⟨data, rfl⟩
  all_goals exact absurd rfl hnot

/-- With the harvester, OP 0x20 alone makes a word a SMPL (R72). -/
theorem decode_present_of_opField_smpl {w : CmdWord} (hop : opField w = 0x20#8) :
    decode .present w = .command (.smpl (dataField w)) :=
  decode_eq_command ((isReadingOf_command_iff ..).2 ⟨rfl, hop, BitVec.and_allOnes⟩)

theorem performWord_of_opField_smpl {w : CmdWord} {s : State} (hop : opField w = 0x20#8)
    (hp : s.params.harvester = .present) :
    performWord w s = .next (takeSample (sint64 (dataField w)) s) := by
  rw [performWord_of_command (hp ▸ decode_present_of_opField_smpl hop), exec_smpl_of_present _ hp]

theorem performWord_of_overflow {w : CmdWord} {s : State} (hop : opField w = 0x20#8)
    (hp : s.params.harvester = .present) (hns : s.ns = BitVec.allOnes 64) :
    performWord w s = .next (withError s 0b10#2) := by
  rw [performWord_of_opField_smpl hop hp, takeSample_of_overflow _ s hns, raiseError_eq_withError, causeCode]

/-! ### Words that raise no error (R210) -/

/-- A word that is neither reserved nor a SMPL at the last sample number is a hash command or a counted sample. -/
theorem performWord_sameErrors {w : CmdWord} {s t : State} (h : performWord w s = .next t)
    (hres : ¬ reservedOp s.params.harvester (opField w))
    (hover : ¬ (opField w = 0x20#8 ∧ s.params.harvester = .present ∧ s.ns = BitVec.allOnes 64)) :
    t.sameErrors s := by
  have hreads := decode_isReadingOf s.params.harvester w
  rcases performWord_cases w s t h with ⟨i, hdec, hexec⟩ | ⟨op, hdec, -⟩
  · by_cases hhash : isHashCommand i = true
    · exact exec_hashCommand_sameErrors hhash hexec
    · obtain ⟨data, rfl⟩ := eq_smpl_of_not_hashCommand hhash
      obtain ⟨hwf, hop, -⟩ := (isReadingOf_command_iff ..).1 (hdec ▸ hreads)
      have hp : s.params.harvester = .present := of_decide_eq_true hwf
      obtain rfl := Host.Outcome.next.inj ((performWord_of_opField_smpl hop hp).symm.trans h)
      exact takeSample_sameErrors _ fun hns => hover ⟨hop, hp, hns⟩
  · obtain ⟨-, hop⟩ : IsReadingOf _ w (.reserved op) := hdec ▸ hreads
    exact absurd hop hres

/-- Settles O41: in each of the two situations the word leaves `withError` of its code; every other word keeps the
error state. -/
theorem errorsComeFromExactlyTwoSituations : Obligations.ErrorsComeFromExactlyTwoSituations := by
  unfold Obligations.ErrorsComeFromExactlyTwoSituations
  refine fun w s t h => ⟨fun hres => ?_, fun hop hp hns => ?_, performWord_sameErrors h⟩
  · have hdec := (decode_eq_reserved_iff s.params.harvester w).2 hres
    exact Host.Outcome.next.inj (h.symm.trans (performWord_of_reserved hdec))
  · exact Host.Outcome.next.inj (h.symm.trans (performWord_of_overflow hop hp hns))

end Sys2Proof.Machine

/-! PROOF. The system reset at the ports (70_reset_and_hazards.md R230, R231). An edge with `rst = 1` is `resetEdge`,
which reads nothing of the command in flight, and every engine shows the quiet outputs while `rst = 1`. -/

namespace Sys2Proof.Machine

/-! ### The reset edge -/

@[simp] theorem resetEdge_arch (e : Engine) : (resetEdge e).arch = systemReset e.arch := rfl
@[simp] theorem resetEdge_phase (e : Engine) : (resetEdge e).phase = .idle := rfl
@[simp] theorem resetEdge_hold (e : Engine) : (resetEdge e).hold = none := rfl
@[simp] theorem resetEdge_wasReset (e : Engine) : (resetEdge e).wasReset = true := rfl

/-- What was in flight is not read: an engine in any other phase becomes the same one. -/
theorem resetEdge_with_phase (e : Engine) (p : Phase) : resetEdge { e with phase := p } = resetEdge e := rfl

/-- On a block never reset too, and whatever the host does with its word. -/
theorem edge_of_rst {i : PortIn} (hrst : i.rst = true) (e : Engine) : edge i e = .next (resetEdge e) :=
  if_pos hrst

theorem systemReset_atCtx0 (s : State) : (systemReset s).atCtx0 :=
  ⟨systemReset_h s, systemReset_fill s, systemReset_bitcnt s⟩

/-! ### The outputs while `rst = 1` -/

/-- Before the first reset only STATUS differs; after it a record that is presented is masked. -/
theorem outputs_of_rst (e : Engine) : ∃ status, outputs true e = .next (quietOutputs false status e) := by
  unfold outputs
  cases e.wasReset with
  | false => exact ⟨_, rfl⟩
  | true => cases e.phase <;> exact ⟨_, rfl⟩

/-- Settles O50: the edge is `resetEdge`, whose state is `systemReset`, read field by field; the outputs are the quiet
ones with `cmd_ready = 0`. -/
theorem resetEdgeAbandonsTheCommand : Obligations.ResetEdgeAbandonsTheCommand := by
  unfold Obligations.ResetEdgeAbandonsTheCommand
  refine ⟨fun e i hrst => ?_, fun e i p hrst => ?_, fun e => ?_⟩
  · exact ⟨resetEdge e, edge_of_rst hrst e, resetEdge_phase e, resetEdge_wasReset e, systemReset_atCtx0 _,
      systemReset_err _, systemReset_cause _, systemReset_win _, systemReset_ns _, systemReset_sum _,
      systemReset_out _⟩
  · rw [edge_of_rst hrst, edge_of_rst hrst, resetEdge_with_phase]
  · obtain ⟨status, hout⟩ := outputs_of_rst e
    exact ⟨_, hout, rfl, rfl⟩

end Sys2Proof.Machine

/-! PROOF. The encoding as a round trip and as a table (30_encoding.md R70 to R81). Both directions of the round trip
are `decode_eq_command_iff`; a row of the opcode table is told by OP alone, as the mnemonic of a command is. -/

namespace Sys2Proof

open Sys2Proof.Claims

/-! ### The round trip -/

/-- The encoder writes the ignored bits as 0, so its word is the command's own word. -/
theorem decode_encode {hv : Harvester} {i : Instr} (hwf : i.wellFormed hv = true) :
    decode hv (encode i) = .command i :=
  (decode_eq_command_iff hv (encode i) i).2 ⟨hwf, (encode_and_usedBits i).symm⟩

/-- Settles O1: this is `decode_encode`. -/
theorem decodeOfEncodeIsTheCommand : Obligations.DecodeOfEncodeIsTheCommand := by
  unfold Obligations.DecodeOfEncodeIsTheCommand
  exact fun hv i hwf => decode_encode hwf

/-- Settles O2: this is one direction of `decode_eq_command_iff`. -/
theorem encodeOfDecodeClearsIgnoredBits : Obligations.EncodeOfDecodeClearsIgnoredBits := by
  unfold Obligations.EncodeOfDecodeClearsIgnoredBits
  exact fun hv w i hdec => (decode_eq_command_iff hv w i).1 hdec

/-- OP is the opcode of the command a word decodes to. -/
theorem opField_of_decode {hv : Harvester} {w : CmdWord} {i : Instr} (hdec : decode hv w = .command i) :
    opField w = i.opcode := by
  obtain ⟨-, hop, -⟩ := (isReadingOf_command_iff hv w i).1 (hdec ▸ decode_isReadingOf hv w)
  exact hop

/-- R76: every word whose OP is not reserved is a command. -/
theorem exists_decode_of_not_reservedOp {hv : Harvester} {w : CmdWord} (hnot : ¬ reservedOp hv (opField w)) :
    ∃ i, decode hv w = .command i := by
  cases hd : decode hv w with
  | command i => exact ⟨i, rfl⟩
  | reserved op =>
    obtain ⟨-, hres⟩ : IsReadingOf hv w (.reserved op) := hd ▸ decode_isReadingOf hv w
    exact absurd hres hnot

/-! ### The opcode table -/

theorem opcodeRow_fields : ∀ r ∈ opcodeRows,
    r.mask = rawWord (BitVec.allOnes 8) 0#64 ∧ r.pattern = rawWord (opField r.pattern) 0#64 := by decide

/-- Every row masks all but OP. -/
theorem opcodeRow_covers_iff {r : OpcodeRow} (hr : r ∈ opcodeRows) (w : CmdWord) :
    r.covers w = true ↔ opField w = opField r.pattern := by
  obtain ⟨hmask, hpattern⟩ := opcodeRow_fields r hr
  rw [OpcodeRow.covers, decide_eq_true_iff, hmask, ← rawWord_opField_dataField w, rawWord_and,
    BitVec.and_allOnes, BitVec.and_zero, hpattern, rawWord_eq_iff]
  simp

theorem mnemonic_eq_iff_opcode_eq (i : Instr) :
    ∀ r ∈ opcodeRows, i.mnemonic = r.mnemonic ↔ i.opcode = opField r.pattern := by
  cases i <;> simp only [Instr.mnemonic, Instr.opcode] <;> decide

theorem not_reservedOp_of_opcodeRow :
    ∀ r ∈ opcodeRows, ¬ reservedOp .present (opField r.pattern) := by
  unfold reservedOp
  decide

/-- Settles O6: a row covers the words with its OP, and the command such a word decodes to has that opcode, hence the
row's mnemonic. -/
theorem decodeFollowsTheOpcodeTable : Obligations.DecodeFollowsTheOpcodeTable := by
  unfold Obligations.DecodeFollowsTheOpcodeTable
  intro w r hr
  rw [opcodeRow_covers_iff hr]
  constructor
  · intro hop
    obtain ⟨i, hdec⟩ := exists_decode_of_not_reservedOp (hop ▸ not_reservedOp_of_opcodeRow r hr)
    exact ⟨i, hdec, (mnemonic_eq_iff_opcode_eq i r hr).2 ((opField_of_decode hdec).symm.trans hop)⟩
  · rintro ⟨i, hdec, hmn⟩
    exact (opField_of_decode hdec).trans ((mnemonic_eq_iff_opcode_eq i r hr).1 hmn)

/-- Settles O7: nine fixed words. -/
theorem sampleWordsDecodeAsListed : Obligations.SampleWordsDecodeAsListed := by
  unfold Obligations.SampleWordsDecodeAsListed
  decide

end Sys2Proof

/-! PROOF. One step of the machine (00_scope.md R6, 60_exceptions.md R221, 70_reset_and_hazards.md R230), said for each
form of the inbox, and what every step does with the parameters and the inbox. -/

namespace Sys2Proof.Machine

open Sys2Proof.Claims

/-! ### A step by the first input -/

theorem step_of_inbox_nil {s : State} (hin : s.inbox = []) : step s = .next s := by
  rw [step, takeInput, hin]

theorem step_of_command {s : State} {w : CmdWord} {rest : List HostInput} (hin : s.inbox = .command w :: rest) :
    step s = performWord w { s with inbox := rest } := by
  rw [step, takeInput, hin]

theorem step_of_systemReset {s : State} {rest : List HostInput} (hin : s.inbox = .systemReset :: rest) :
    step s = .next (systemReset { s with inbox := rest }) := by
  rw [step, takeInput, hin]

/-- All 72 bits of the word are presented (log 12). -/
theorem tableWord_toNat (w : CmdWord) : tableWord 72 w.toNat = w := by
  rw [tableWord, Nat.min_self, Nat.mod_eq_of_lt w.isLt, BitVec.ofNat_toNat, BitVec.setWidth_eq]

theorem step_withFetchWord (s : State) (w : CmdWord) : step (s.withFetchWord 72 w.toNat) = performWord w s := by
  rw [withFetchWord_eq, tableWord_toNat]
  exact step_of_command rfl

/-- Settles O8: the step performs the word, and `performWord` is told by what the word decodes to. -/
theorem stepRunsTheDecodedCommand : Obligations.StepRunsTheDecodedCommand := by
  unfold Obligations.StepRunsTheDecodedCommand
  refine ⟨fun s w rest hin => ?_, step_withFetchWord⟩
  rw [step_of_command hin]
  exact ⟨fun i hdec => performWord_of_command hdec, fun op hdec => performWord_of_reserved hdec⟩

/-- Settles O9: the new state is `systemReset`, read field by field. -/
theorem stepIdlesOrTakesASystemReset : Obligations.StepIdlesOrTakesASystemReset := by
  unfold Obligations.StepIdlesOrTakesASystemReset
  refine ⟨fun s hin => step_of_inbox_nil hin, fun s rest hin => ?_⟩
  exact ⟨_, step_of_systemReset hin, systemReset_atCtx0 _, systemReset_err _, systemReset_cause _,
    systemReset_win _, systemReset_ns _, systemReset_sum _, systemReset_out _, systemReset_params _,
    systemReset_inbox _⟩

/-! ### SMPL without a harvester (R76, log 7) -/

theorem performWord_smpl_of_absent (data : Word64) {s : State} (ha : s.params.harvester = .absent) :
    performWord (rawWord 0x20#8 data) s = .next (withError s 0b01#2) := by
  have hres : reservedOp s.params.harvester (opField (rawWord 0x20#8 data)) := by
    rw [opField_rawWord]
    exact .inr (.inr (.inr ⟨rfl, ha⟩))
  exact performWord_of_reserved ((decode_eq_reserved_iff _ _).2 hres)

/-- Settles O5: the command records the error itself, and the word is reserved. -/
theorem smplWithoutHarvesterIsReserved : Obligations.SmplWithoutHarvesterIsReserved := by
  unfold Obligations.SmplWithoutHarvesterIsReserved
  intro data s ha
  refine ⟨?_, performWord_smpl_of_absent data ha⟩
  rw [exec_smpl_of_absent data ha, raiseError_eq_withError, causeCode]

/-! ### STATUS (R28) -/

theorem statusWord_fields : ∀ (busy err : Bool) (cause : BitVec 2),
    (statusWord busy err cause).extractLsb' 0 1 = BitVec.ofBool busy ∧
    (statusWord busy err cause).extractLsb' 1 1 = BitVec.ofBool err ∧
    (statusWord busy err cause).extractLsb' 2 2 = cause := by decide

/-- Settles O12: between commands STATUS is the status word with BUSY = 0. -/
theorem statusHoldsBusyErrAndCause : Obligations.StatusHoldsBusyErrAndCause := by
  unfold Obligations.StatusHoldsBusyErrAndCause
  exact fun s => statusWord_fields false s.err s.cause

end Sys2Proof.Machine

/-! PROOF. What one command can do, said once (`CommandEffect`), and what follows for every word and every step: the
parameters and the inbox are kept, ERR is sticky, at most one record is made, and what a word does depends neither on ERR
and CAUSE nor on the timing parameters. -/

namespace Sys2Proof.Machine

open Sys2Proof.Claims

/-! ### Everything a command and a word can do -/

/-- The states a command may lead to from `s`, with the situation each belongs to. -/
inductive CommandEffect (s : State) : Instr → State → Prop
  | reset : CommandEffect s .reset (resetContext s)
  | digest : CommandEffect s .digest (resetContext (emit .host (digestValue (finalHash s)) s))
  | absorb {i : Instr} (hall : ∀ u, exec i u = .next (absorbAll (messageBytes i) u)) :
      CommandEffect s i (absorbAll (messageBytes i) s)
  | sample (data : Word64) (hp : s.params.harvester = .present) (hns : s.ns ≠ BitVec.allOnes 64) :
      CommandEffect s (.smpl data) (takeSample (sint64 data) s)
  | overflow (data : Word64) (hp : s.params.harvester = .present) (hns : s.ns = BitVec.allOnes 64) :
      CommandEffect s (.smpl data) (raiseError .sampleOverflow s)
  | noHarvester (data : Word64) (ha : s.params.harvester = .absent) :
      CommandEffect s (.smpl data) (raiseError .reserved s)

theorem exec_smpl_effect {data : Word64} {s t : State} (h : exec (.smpl data) s = .next t) :
    CommandEffect s (.smpl data) t := by
  cases hv : s.params.harvester with
  | absent =>
    obtain rfl := Host.Outcome.next.inj ((exec_smpl_of_absent data hv).symm.trans h)
    exact .noHarvester data hv
  | present =>
    obtain rfl := Host.Outcome.next.inj ((exec_smpl_of_present data hv).symm.trans h)
    by_cases hns : s.ns = BitVec.allOnes 64
    · rw [takeSample_of_overflow _ s hns]
      exact .overflow data hv hns
    · exact .sample data hv hns

theorem exec_effect {i : Instr} {s t : State} (h : exec i s = .next t) : CommandEffect s i t := by
  by_cases hhash : isHashCommand i = true
  · rcases hashCommand_cases hhash with rfl | rfl | habs
    · cases h
      exact .reset
    · cases h
      exact .digest
    · obtain rfl := Host.Outcome.next.inj ((habs s).symm.trans h)
      exact .absorb habs
  · obtain ⟨data, rfl⟩ := eq_smpl_of_not_hashCommand hhash
    exact exec_smpl_effect h

/-- A word is a command with one of its effects, or is reserved. -/
theorem performWord_effect {w : CmdWord} {s t : State} (h : performWord w s = .next t) :
    (∃ i, decode s.params.harvester w = .command i ∧ CommandEffect s i t) ∨
      t = raiseError .reserved s := by
  rcases performWord_cases w s t h with ⟨i, hdec, hexec⟩ | ⟨op, -, rfl⟩
  · exact .inl ⟨i, hdec, exec_effect hexec⟩
  · exact .inr rfl

/-! ### The parameters and the inbox (R7) -/

theorem takeSample_sameHost (d : Int) (s : State) : (takeSample d s).sameHost s := by
  obtain ⟨hparams, -, -, -, -, hinbox, -⟩ := takeSample_frame d s
  exact ⟨hparams, hinbox⟩

theorem absorbAll_sameHost (bytes : List Byte) (s : State) : (absorbAll bytes s).sameHost s := by
  obtain ⟨hparams, -, -, -, -, -, -, hinbox⟩ := absorbAll_frame bytes s
  exact ⟨hparams, hinbox⟩

theorem raiseError_sameHost (e : ErrorCause) (s : State) : (raiseError e s).sameHost s :=
  ⟨raiseError_params e s, raiseError_inbox e s⟩

theorem CommandEffect.sameHost {s t : State} {i : Instr} (heff : CommandEffect s i t) : t.sameHost s := by
  cases heff with
  | reset => exact ⟨rfl, rfl⟩
  | digest => exact ⟨rfl, rfl⟩
  | absorb hall => exact absorbAll_sameHost _ s
  | sample data hp hns => exact takeSample_sameHost _ s
  | overflow data hp hns => exact raiseError_sameHost _ s
  | noHarvester data ha => exact raiseError_sameHost _ s

theorem exec_sameHost {i : Instr} {s t : State} (h : exec i s = .next t) : t.sameHost s :=
  (exec_effect h).sameHost

theorem performWord_sameHost {w : CmdWord} {s t : State} (h : performWord w s = .next t) : t.sameHost s := by
  rcases performWord_effect h with ⟨i, -, heff⟩ | rfl
  · exact heff.sameHost
  · exact raiseError_sameHost _ s

theorem performWord_params {w : CmdWord} {s t : State} (h : performWord w s = .next t) :
    t.params = s.params :=
  (performWord_sameHost h).1

/-- Settles O10: the step takes the first input off the inbox, and performing a word leaves the rest. -/
theorem stepKeepsParametersAndUsesOneInput : Obligations.StepKeepsParametersAndUsesOneInput := by
  unfold Obligations.StepKeepsParametersAndUsesOneInput
  intro s t h
  rcases step_cases s t h with ⟨hin, rfl⟩ | ⟨rest, hin, rfl⟩ | ⟨w, rest, hin, hword⟩
  · exact ⟨rfl, by rw [hin, List.tail_nil]⟩
  · exact ⟨rfl, by rw [hin, List.tail_cons, systemReset_inbox]⟩
  · obtain ⟨hparams, hinbox⟩ := performWord_sameHost hword
    exact ⟨hparams, by rw [hinbox, hin, List.tail_cons]⟩

/-! ### Records (R32, R61) -/

/-- What a word may append to OUT: nothing, or one record whose source is told by OP. -/
theorem CommandEffect.out {s t : State} {i : Instr} (heff : CommandEffect s i t) :
    t.out = s.out ∨ (∃ d, i.opcode = 0x02#8 ∧ t.out = s.out ++ [{ src := .host, data := d }]) ∨
      (∃ d, i.opcode = 0x20#8 ∧ t.out = s.out ++ [{ src := .harv, data := d }]) := by
  cases heff with
  | reset => exact .inl rfl
  | digest => exact .inr (.inl ⟨_, rfl, rfl⟩)
  | absorb hall =>
    obtain ⟨-, -, -, -, -, -, hout, -⟩ := absorbAll_frame (messageBytes i) s
    exact .inl hout
  | sample data hp hns =>
    obtain ⟨win, -, htake⟩ := takeSample_of_ne (sint64 data) s hns
    rw [htake]
    by_cases hfull : win.length = winCapacity
    · exact .inr (.inr ⟨_, rfl, congrArg (s.out ++ ·) (if_pos hfull)⟩)
    · exact .inl ((congrArg (s.out ++ ·) (if_neg hfull)).trans (List.append_nil _))
  | overflow data hp hns => exact .inl (raiseError_out _ s)
  | noHarvester data ha => exact .inl (raiseError_out _ s)

/-- Settles O43: OP is the opcode of the command the word decodes to. -/
theorem wordsAppendAtMostOneRecord : Obligations.WordsAppendAtMostOneRecord := by
  unfold Obligations.WordsAppendAtMostOneRecord
  intro w s t h
  rcases performWord_effect h with ⟨i, hdec, heff⟩ | rfl
  · rw [opField_of_decode hdec]
    exact heff.out
  · exact .inl (raiseError_out _ s)

/-- The records a word makes: none or one. -/
theorem performWord_out {w : CmdWord} {s t : State} (h : performWord w s = .next t) :
    t.out = s.out ∨ ∃ r, t.out = s.out ++ [r] := by
  rcases wordsAppendAtMostOneRecord w s t h with heq | ⟨d, -, hout⟩ | ⟨d, -, hout⟩
  · exact .inl heq
  · exact .inr ⟨_, hout⟩
  · exact .inr ⟨_, hout⟩

/-! ### Fields that commands pass on without reading them -/

/-- The state with other parameters and another error state. -/
def State.withFrame (p : Params) (err : Bool) (cause : BitVec 2) (s : State) : State :=
  { s with params := p, err := err, cause := cause }

section
variable {p : Params} {err : Bool} {cause : BitVec 2}

theorem finalHash_withFrame (s : State) : finalHash (s.withFrame p err cause) = finalHash s :=
  State.AgreesInContext.finalHash_eq ⟨rfl, rfl, rfl, fun _ _ => rfl⟩

theorem absorb_withFrame (v : Byte) (s : State) :
    absorb v (s.withFrame p err cause) = (absorb v s).withFrame p err cause := by
  by_cases hlt : s.fill.val + 1 < 64
  · rw [absorb_of_lt v s hlt, absorb_of_lt v (s.withFrame p err cause) hlt]
    rfl
  · rw [absorb_of_full v s hlt, absorb_of_full v (s.withFrame p err cause) hlt]
    rfl

theorem absorbAll_withFrame (bytes : List Byte) (s : State) :
    absorbAll bytes (s.withFrame p err cause) = (absorbAll bytes s).withFrame p err cause := by
  induction bytes generalizing s with
  | nil => rfl
  | cons v rest ih => rw [absorbAll_cons, absorbAll_cons, absorb_withFrame, ih]

theorem takeSample_withFrame (d : Int) {s : State} (hcmp : p.meanCmp = s.params.meanCmp)
    (hns : s.ns ≠ BitVec.allOnes 64) :
    takeSample d (s.withFrame p err cause) = (takeSample d s).withFrame p err cause := by
  obtain ⟨win, hwin, htake⟩ := takeSample_of_ne d s hns
  obtain ⟨win', hwin', htake'⟩ := takeSample_of_ne d (s.withFrame p err cause) hns
  obtain rfl : win' = win := by
    rw [hwin', hwin, ← hcmp]
    rfl
  rw [htake, htake']
  rfl

theorem raiseError_withFrame (e : ErrorCause) (s : State) :
    raiseError e (s.withFrame p err cause) =
      (raiseError e s).withFrame p true (if err then cause else causeCode e) := by
  rw [raiseError_eq, raiseError_eq]
  rfl

/-- With other timing parameters and any error state a command does the same to everything else; with the same error
state it also leaves the same one. -/
theorem CommandEffect.exec_withFrame {s t : State} {i : Instr} (heff : CommandEffect s i t)
    (hharv : p.harvester = s.params.harvester) (hcmp : p.meanCmp = s.params.meanCmp) :
    ∃ err' cause', exec i (s.withFrame p err cause) = .next (t.withFrame p err' cause') ∧
      (err = s.err → cause = s.cause → err' = t.err ∧ cause' = t.cause) := by
  cases heff with
  | reset => exact ⟨err, cause, rfl, fun he hc => ⟨he, hc⟩⟩
  | digest =>
    refine ⟨err, cause, ?_, fun he hc => ⟨he, hc⟩⟩
    rw [exec_digest, finalHash_withFrame]
    rfl
  | absorb hall =>
    obtain ⟨-, herr, hcause, -⟩ := absorbAll_frame (messageBytes i) s
    exact ⟨err, cause, (hall _).trans (congrArg _ (absorbAll_withFrame _ s)),
      fun he hc => ⟨he.trans herr.symm, hc.trans hcause.symm⟩⟩
  | sample data hp hns =>
    obtain ⟨herr, hcause⟩ := takeSample_sameErrors (sint64 data) hns
    exact ⟨err, cause, (exec_smpl_of_present data (hharv.trans hp)).trans
      (congrArg _ (takeSample_withFrame _ hcmp hns)), fun he hc => ⟨he.trans herr.symm, hc.trans hcause.symm⟩⟩
  | overflow data hp hns =>
    refine ⟨_, _, (exec_smpl_of_present data (hharv.trans hp)).trans
      (congrArg _ ((takeSample_of_overflow _ (s.withFrame p err cause) hns).trans (raiseError_withFrame _ s))), ?_⟩
    rintro rfl rfl
    simp
  | noHarvester data ha =>
    refine ⟨_, _, (exec_smpl_of_absent data (hharv.trans ha)).trans
      (congrArg _ (raiseError_withFrame _ s)), ?_⟩
    rintro rfl rfl
    simp

theorem performWord_withFrame {w : CmdWord} {s t : State} (h : performWord w s = .next t)
    (hharv : p.harvester = s.params.harvester) (hcmp : p.meanCmp = s.params.meanCmp) :
    ∃ err' cause', performWord w (s.withFrame p err cause) = .next (t.withFrame p err' cause') ∧
      (err = s.err → cause = s.cause → err' = t.err ∧ cause' = t.cause) := by
  have hdec' : decode (s.withFrame p err cause).params.harvester w = decode s.params.harvester w :=
    congrArg (decode · w) hharv
  rcases performWord_cases w s t h with ⟨i, hdec, hexec⟩ | ⟨op, hdec, rfl⟩
  · rw [performWord_of_command (hdec'.trans hdec)]
    exact (exec_effect hexec).exec_withFrame hharv hcmp
  · refine ⟨true, if err then cause else causeCode .reserved, ?_, ?_⟩
    · rw [performWord_of_reserved (hdec'.trans hdec), ← causeCode, ← raiseError_eq_withError,
        raiseError_withFrame]
    · rintro rfl rfl
      simp

end

/-! ### ERR is sticky (R29, R30, R212) -/

theorem raiseError_keeps_error (e : ErrorCause) {s : State} (herr : s.err = true) :
    (raiseError e s).err = true ∧ (raiseError e s).cause = s.cause := by
  simp [herr]

theorem CommandEffect.keeps_error {s t : State} {i : Instr} (heff : CommandEffect s i t)
    (herr : s.err = true) : t.err = true ∧ t.cause = s.cause := by
  cases heff with
  | reset => exact ⟨herr, rfl⟩
  | digest => exact ⟨herr, rfl⟩
  | absorb hall =>
    obtain ⟨-, herr', hcause, -⟩ := absorbAll_frame (messageBytes i) s
    exact ⟨herr'.trans herr, hcause⟩
  | sample data hp hns =>
    obtain ⟨herr', hcause⟩ := takeSample_sameErrors (sint64 data) hns
    exact ⟨herr'.trans herr, hcause⟩
  | overflow data hp hns => exact raiseError_keeps_error _ herr
  | noHarvester data ha => exact raiseError_keeps_error _ herr

/-- Settles O42: the error state is a field commands pass on, so the state reached from any other error state is the
same but for ERR and CAUSE. -/
theorem errorIsStickyAndTheEngineGoesOn : Obligations.ErrorIsStickyAndTheEngineGoesOn := by
  unfold Obligations.ErrorIsStickyAndTheEngineGoesOn
  refine fun w s t h => ⟨fun herr => ?_, fun e c => ?_⟩
  · rcases performWord_effect h with ⟨i, -, heff⟩ | rfl
    · exact heff.keeps_error herr
    · exact raiseError_keeps_error _ herr
  · obtain ⟨e', c', hword, -⟩ := performWord_withFrame (p := s.params) (err := e) (cause := c) h rfl rfl
    refine ⟨_, hword, ?_⟩
    rw [← performWord_params h]
    rfl

/-! ### Timing parameters and placement (R7, R58) -/

/-- Settles O54: a word meets the block with the other parameters in the same error state, which it passes on. -/
theorem timingParametersAndPlacementHaveNoEffect : Obligations.TimingParametersAndPlacementHaveNoEffect := by
  unfold Obligations.TimingParametersAndPlacementHaveNoEffect
  refine ⟨fun s t dp lat base h => ?_, fun p => rfl⟩
  rcases step_cases s t h with ⟨hin, rfl⟩ | ⟨rest, hin, rfl⟩ | ⟨w, rest, hin, hword⟩
  · exact step_of_inbox_nil hin
  · exact step_of_systemReset hin
  · obtain ⟨e', c', hword', hsame⟩ := performWord_withFrame (err := s.err) (cause := s.cause)
      (p := { s.params with datapath := dp, latC := lat, base := base }) hword rfl rfl
    obtain ⟨rfl, rfl⟩ := hsame rfl rfl
    rw [performWord_params hword]
    refine (step_of_command ?_).trans hword'
    exact hin

/-! ### Bytes of BUF at and beyond FILL (R22) -/

theorem State.Agrees.agreesInContext {s t : State} (h : s.Agrees t) : s.AgreesInContext t :=
  ⟨h.h, h.fill, h.bitcnt, h.buf⟩

theorem State.AgreesInContext.agrees {s t : State} (hc : s.AgreesInContext t) (he : s.sameErrors t)
    (hh : s.sameHarvester t) (hout : s.out = t.out) (hhost : s.sameHost t) : s.Agrees t :=
  ⟨hhost.1, hc.h, hc.fill, hc.buf, hc.bitcnt, he.1, he.2, hh.1, hh.2.1, hh.2.2, hout, hhost.2⟩

theorem raiseError_agrees (e : ErrorCause) {s t : State} (h : s.Agrees t) :
    (raiseError e s).Agrees (raiseError e t) := by
  rw [raiseError_eq, raiseError_eq, h.err, h.cause]
  exact ⟨h.params, h.h, h.fill, h.buf, h.bitcnt, rfl, rfl, h.win, h.ns, h.sum, h.out, h.inbox⟩

theorem takeSample_errors_agree (d : Int) {s t : State} (h : s.Agrees t) :
    (takeSample d s).sameErrors (takeSample d t) := by
  by_cases hns : s.ns = BitVec.allOnes 64
  · rw [takeSample_of_overflow d s hns, takeSample_of_overflow d t (h.ns ▸ hns)]
    exact ⟨(raiseError_agrees _ h).err, (raiseError_agrees _ h).cause⟩
  · obtain ⟨herr, hcause⟩ := takeSample_sameErrors d hns
    obtain ⟨herr', hcause'⟩ := takeSample_sameErrors d (s := t) (h.ns ▸ hns)
    exact ⟨by rw [herr, herr', h.err], by rw [hcause, hcause', h.cause]⟩

theorem exec_smpl_errors_agree {data : Word64} {s₁ s₂ t₁ t₂ : State} (h : s₁.Agrees s₂)
    (h₁ : exec (.smpl data) s₁ = .next t₁) (h₂ : exec (.smpl data) s₂ = .next t₂) : t₁.sameErrors t₂ := by
  cases hv : s₁.params.harvester with
  | present =>
    rw [exec_smpl_of_present data hv] at h₁
    rw [exec_smpl_of_present data (h.params ▸ hv)] at h₂
    cases h₁
    cases h₂
    exact takeSample_errors_agree _ h
  | absent =>
    rw [exec_smpl_of_absent data hv] at h₁
    rw [exec_smpl_of_absent data (h.params ▸ hv)] at h₂
    cases h₁
    cases h₂
    exact ⟨(raiseError_agrees _ h).err, (raiseError_agrees _ h).cause⟩

theorem exec_hashCommand_errors_agree {i : Instr} {s₁ s₂ t₁ t₂ : State} (hhash : isHashCommand i = true)
    (h : s₁.Agrees s₂) (h₁ : exec i s₁ = .next t₁) (h₂ : exec i s₂ = .next t₂) : t₁.sameErrors t₂ := by
  obtain ⟨herr₁, hcause₁⟩ := exec_hashCommand_sameErrors hhash h₁
  obtain ⟨herr₂, hcause₂⟩ := exec_hashCommand_sameErrors hhash h₂
  exact ⟨by rw [herr₁, herr₂, h.err], by rw [hcause₁, hcause₂, h.cause]⟩

theorem exec_hosts_agree {i : Instr} {s₁ s₂ t₁ t₂ : State} (h : s₁.Agrees s₂) (h₁ : exec i s₁ = .next t₁)
    (h₂ : exec i s₂ = .next t₂) : t₁.sameHost t₂ := by
  obtain ⟨hparams₁, hinbox₁⟩ := exec_sameHost h₁
  obtain ⟨hparams₂, hinbox₂⟩ := exec_sameHost h₂
  exact ⟨by rw [hparams₁, hparams₂, h.params], by rw [hinbox₁, hinbox₂, h.inbox]⟩

/-- A command writes the half it works on from the defined part of that half, and passes the other half on. -/
theorem exec_agrees {i : Instr} {s₁ s₂ t₁ t₂ : State} (h : s₁.Agrees s₂) (h₁ : exec i s₁ = .next t₁)
    (h₂ : exec i s₂ = .next t₂) : t₁.Agrees t₂ := by
  by_cases hhash : isHashCommand i = true
  · obtain ⟨⟨hwin₁, hns₁, hsum₁⟩, hc, rs, hout₁, hout₂⟩ :=
      exec_hashCommand_agrees hhash h.agreesInContext h₁ h₂
    obtain ⟨⟨hwin₂, hns₂, hsum₂⟩, -⟩ :=
      exec_hashCommand_agrees hhash ⟨rfl, rfl, rfl, fun _ _ => rfl⟩ h₂ h₂
    have hharv : t₁.sameHarvester t₂ :=
      ⟨by rw [hwin₁, hwin₂, h.win], by rw [hns₁, hns₂, h.ns], by rw [hsum₁, hsum₂, h.sum]⟩
    exact hc.agrees (exec_hashCommand_errors_agree hhash h h₁ h₂) hharv (by rw [hout₁, hout₂, h.out])
      (exec_hosts_agree h h₁ h₂)
  · obtain ⟨data, rfl⟩ := eq_smpl_of_not_hashCommand hhash
    obtain ⟨⟨hh₁, hbuf₁, hfill₁, hbit₁⟩, hharv, rs, hout₁, hout₂⟩ :=
      exec_smpl_agrees h.params ⟨h.win, h.ns, h.sum⟩ h₁ h₂
    obtain ⟨⟨hh₂, hbuf₂, hfill₂, hbit₂⟩, -⟩ := exec_smpl_agrees rfl ⟨rfl, rfl, rfl⟩ h₂ h₂
    have hc : t₁.AgreesInContext t₂ :=
      ⟨by rw [hh₁, hh₂, h.h], by rw [hfill₁, hfill₂, h.fill], by rw [hbit₁, hbit₂, h.bitcnt],
        by rw [hfill₁, hbuf₁, hbuf₂]; exact h.buf⟩
    exact hc.agrees (exec_smpl_errors_agree h h₁ h₂) hharv (by rw [hout₁, hout₂, h.out])
      (exec_hosts_agree h h₁ h₂)

theorem performWord_agrees {w : CmdWord} {s₁ s₂ t₁ : State} (h : s₁.Agrees s₂)
    (h₁ : performWord w s₁ = .next t₁) : ∃ t₂, performWord w s₂ = .next t₂ ∧ t₁.Agrees t₂ := by
  rcases performWord_cases w s₁ t₁ h₁ with ⟨i, hdec, hexec₁⟩ | ⟨op, hdec, rfl⟩
  · obtain ⟨t₂, hexec₂⟩ := exec_next i s₂
    exact ⟨t₂, (performWord_of_command (h.params ▸ hdec)).trans hexec₂, exec_agrees h hexec₁ hexec₂⟩
  · refine ⟨raiseError .reserved s₂, ?_, raiseError_agrees _ h⟩
    rw [performWord_of_reserved (h.params ▸ hdec), raiseError_eq_withError, causeCode]

theorem State.Agrees.with_inbox {s t : State} (h : s.Agrees t) (rest : List HostInput) :
    State.Agrees { s with inbox := rest } { t with inbox := rest } :=
  ⟨h.params, h.h, h.fill, h.buf, h.bitcnt, h.err, h.cause, h.win, h.ns, h.sum, h.out, rfl⟩

theorem systemReset_agrees {s t : State} (h : s.Agrees t) : (systemReset s).Agrees (systemReset t) :=
  ⟨h.params, rfl, rfl, fun _ hj => absurd hj (Nat.not_lt_zero _), rfl, rfl, rfl, rfl, rfl, rfl, rfl, h.inbox⟩

/-- Settles O24, by the first input of the inbox, which the two states share. -/
theorem unspecifiedBufferBytesAreUnobservable : Obligations.UnspecifiedBufferBytesAreUnobservable := by
  unfold Obligations.UnspecifiedBufferBytesAreUnobservable
  intro s₁ s₂ t₁ h h₁
  rcases step_cases s₁ t₁ h₁ with ⟨hin, rfl⟩ | ⟨rest, hin, rfl⟩ | ⟨w, rest, hin, hword⟩
  · exact ⟨s₂, step_of_inbox_nil (h.inbox ▸ hin), h⟩
  · exact ⟨_, step_of_systemReset (h.inbox ▸ hin), systemReset_agrees (h.with_inbox rest)⟩
  · rw [step_of_command (h.inbox ▸ hin)]
    exact performWord_agrees (h.with_inbox rest) hword

end Sys2Proof.Machine

/-! PROOF. The invariant of the block (10_state.md R29, R30, R33 to R35, 42_harvester.md R183, R186). Only a counted
sample and a recorded error write a field it speaks of; everything else keeps those fields, or appends a HOST record. -/

namespace Sys2Proof.Machine

open Sys2Proof.Claims

/-! ### Reset -/

theorem resetWith_inv {p : Params} (hp : p.wf = true) : (State.resetWith p).Inv where
  legal := hp
  quiet _ := rfl
  causes herr := by cases herr
  overflow hcause := by cases hcause
  window := by simp
  sumLow := by simp
  sumHigh := by simp
  yield := by simp [State.harvCount]
  noHarvester _ := ⟨rfl, rfl⟩

/-- Settles O44: `State.reset` is the reset state of the default parameters, which are legal. -/
theorem invariantHoldsAtReset : Obligations.InvariantHoldsAtReset := by
  unfold Obligations.InvariantHoldsAtReset
  exact ⟨resetWith_inv rfl, fun p hp => resetWith_inv hp⟩

/-! ### Fields the invariant does not read -/

/-- The invariant reads the parameters, the error state, the harvester and the number of HARV records. -/
theorem State.Inv.of_same {s t : State} (h : s.Inv) (hparams : t.params = s.params) (herrs : t.sameErrors s)
    (hharv : t.sameHarvester s) (hcount : t.harvCount = s.harvCount) : t.Inv := by
  obtain ⟨herr, hcause⟩ := herrs
  obtain ⟨hwin, hns, hsum⟩ := hharv
  constructor
  · exact hparams ▸ h.legal
  · exact herr ▸ hcause ▸ h.quiet
  · exact herr ▸ hcause ▸ h.causes
  · exact hcause ▸ hns ▸ h.overflow
  · exact hwin ▸ hns ▸ h.window
  · exact hns ▸ hsum ▸ h.sumLow
  · exact hns ▸ hsum ▸ h.sumHigh
  · exact hcount ▸ hns ▸ h.yield
  · exact hparams ▸ hns ▸ hsum ▸ h.noHarvester

theorem systemReset_inv {s : State} (h : s.Inv) : (systemReset s).Inv :=
  (resetWith_inv h.legal).of_same rfl ⟨rfl, rfl⟩ ⟨rfl, rfl, rfl⟩ rfl

theorem State.Inv.with_inbox {s : State} (h : s.Inv) (rest : List HostInput) :
    State.Inv { s with inbox := rest } :=
  h.of_same rfl ⟨rfl, rfl⟩ ⟨rfl, rfl, rfl⟩ rfl

theorem emit_host_harvCount (v : DigestWord) (s : State) : (emit .host v s).harvCount = s.harvCount := by
  simp [State.harvCount]

theorem absorbAll_inv (bytes : List Byte) {s : State} (h : s.Inv) : (absorbAll bytes s).Inv := by
  obtain ⟨hparams, herr, hcause, hwin, hns, hsum, hout, -⟩ := absorbAll_frame bytes s
  exact h.of_same hparams ⟨herr, hcause⟩ ⟨hwin, hns, hsum⟩ (by rw [State.harvCount, hout, State.harvCount])

/-! ### Errors (R29, R30, R210) -/

theorem raiseError_inv {e : ErrorCause} {s : State} (h : s.Inv)
    (hover : e = .sampleOverflow → s.ns = BitVec.allOnes 64) : (raiseError e s).Inv := by
  rw [raiseError_eq]
  constructor
  · exact h.legal
  · exact fun herr => absurd herr Bool.noConfusion
  · intro _
    cases herr : s.err with
    | true => exact h.causes herr
    | false => cases e <;> simp [causeCode]
  · intro hcause
    cases herr : s.err with
    | true => exact h.overflow (by simpa [herr] using hcause)
    | false =>
      cases e with
      | reserved => simp [herr, causeCode] at hcause
      | sampleOverflow => exact hover rfl
  · exact h.window
  · exact h.sumLow
  · exact h.sumHigh
  · exact h.yield
  · exact h.noHarvester

/-! ### A counted sample (R183, R34, R35, R186) -/

/-- A sample makes the window longer until it holds 512 bits. -/
theorem pushBit_length_of_window {win : List Bool} {n : Nat} (bit : Bool) (hwin : win.length = min n winCapacity) :
    (pushBit win bit).length = min (n + 1) winCapacity := by
  have hcap : winCapacity = 512 := rfl
  rw [pushBit_length]
  split <;> omega

/-- The first 511 samples make no record, every later one makes one (R186). -/
theorem countP_harv_record {win : List Bool} {n : Nat} (d : DigestWord)
    (hwin : win.length = min (n + 1) winCapacity) :
    (if win.length = winCapacity then [{ src := .harv, data := d : Record }] else []).countP
      (fun r => decide (r.src = .harv)) = (n + 1 - 511) - (n - 511) := by
  have hcap : winCapacity = 512 := rfl
  split
  · simp only [List.countP_singleton, decide_true, if_true]
    omega
  · simp only [List.countP_nil]
    omega

theorem takeSample_inv {data : Word64} {s : State} (h : s.Inv) (hp : s.params.harvester = .present)
    (hns : s.ns ≠ BitVec.allOnes 64) : (takeSample (sint64 data) s).Inv := by
  obtain ⟨win, hwin, htake⟩ := takeSample_of_ne (sint64 data) s hns
  have hcount : (s.ns + 1#64).toNat = s.ns.toNat + 1 := toNat_add_one_of_ne_allOnes hns
  have hlen : win.length = min (s.ns.toNat + 1) winCapacity := by
    rw [hwin]
    exact pushBit_length_of_window _ h.window
  have hlow : -2 ^ 63 ≤ sint64 data := BitVec.le_toInt data
  have hhigh : sint64 data < 2 ^ 63 := BitVec.toInt_lt
  rw [htake]
  constructor
  · exact h.legal
  · exact h.quiet
  · exact h.causes
  · exact fun hcause => absurd (h.overflow hcause) hns
  · exact hcount ▸ hlen
  · have := h.sumLow
    simp only [hcount]
    push_cast
    linarith
  · have := h.sumHigh
    simp only [hcount]
    push_cast
    linarith
  · have := h.yield
    rw [State.harvCount] at this
    simp only [State.harvCount, List.countP_append, hcount, countP_harv_record _ hlen, this]
    omega
  · exact fun ha => absurd (hp.symm.trans ha) Harvester.noConfusion

/-! ### Commands, words and steps -/

theorem CommandEffect.inv {s t : State} {i : Instr} (heff : CommandEffect s i t) (h : s.Inv) : t.Inv := by
  cases heff with
  | reset => exact h.of_same rfl ⟨rfl, rfl⟩ ⟨rfl, rfl, rfl⟩ rfl
  | digest => exact h.of_same rfl ⟨rfl, rfl⟩ ⟨rfl, rfl, rfl⟩ (emit_host_harvCount _ s)
  | absorb hall => exact absorbAll_inv _ h
  | sample data hp hns => exact takeSample_inv h hp hns
  | overflow data hp hns => exact raiseError_inv h fun _ => hns
  | noHarvester data ha => exact raiseError_inv h nofun

theorem exec_inv {i : Instr} {s t : State} (h : s.Inv) (hexec : exec i s = .next t) : t.Inv :=
  (exec_effect hexec).inv h

theorem performWord_inv {w : CmdWord} {s t : State} (h : s.Inv) (hword : performWord w s = .next t) :
    t.Inv := by
  rcases performWord_effect hword with ⟨i, -, heff⟩ | rfl
  · exact heff.inv h
  · exact raiseError_inv h nofun

/-- Settles O45, by everything one step can do. -/
theorem stepKeepsTheInvariant : Obligations.StepKeepsTheInvariant := by
  unfold Obligations.StepKeepsTheInvariant
  intro s t h hstep
  rcases step_cases s t hstep with ⟨-, rfl⟩ | ⟨rest, -, rfl⟩ | ⟨w, rest, -, hword⟩
  · exact h
  · exact systemReset_inv (h.with_inbox rest)
  · exact performWord_inv (h.with_inbox rest) hword

end Sys2Proof.Machine

/-! PROOF. One edge at the ports (70_reset_and_hazards.md R230 to R237). An edge is a system reset, an idle engine's
acceptance or rest, or the busy engine's `busyEdge`, which is said once for each place the command in flight may be in.
Then the rules of one edge: the refusals, the handshakes, and the two invariants of the port-level engine. -/

namespace Sys2Proof.Machine

open Sys2Proof.Claims

/-! ### BUSY (R31, R235) -/

theorem busy_of_working {e : Engine} {left : Nat} {after : State} (hphase : e.phase = .working left after) :
    e.busy = true := by
  rw [Engine.busy, hphase]

theorem busy_of_presenting {e : Engine} {r : Record} {after : State} (hphase : e.phase = .presenting r after) :
    e.busy = true := by
  rw [Engine.busy, hphase]

theorem not_busy_of_idle {e : Engine} (hphase : e.phase = .idle) : ¬ e.busy = true := by
  rw [Engine.busy, hphase]
  exact Bool.noConfusion

/-- Where a busy engine may be with the command in flight. -/
theorem busy_cases {e : Engine} (hbusy : e.busy = true) :
    (∃ left after, e.phase = .working left after) ∨ ∃ r after, e.phase = .presenting r after := by
  cases hphase : e.phase with
  | idle => exact absurd hbusy (not_busy_of_idle hphase)
  | working left after => exact .inl ⟨left, after, rfl⟩
  | presenting r after => exact .inr ⟨r, after, rfl⟩

theorem phase_eq_idle_of_not_busy {e : Engine} (hbusy : ¬ e.busy = true) : e.phase = .idle := by
  cases hphase : e.phase with
  | idle => rfl
  | working left after => exact absurd (busy_of_working hphase) hbusy
  | presenting r after => exact absurd (busy_of_presenting hphase) hbusy

/-! ### What an edge does -/

theorem edge_of_not_wasReset {i : PortIn} {e : Engine} (hreset : e.wasReset = false) (hrst : i.rst = false) :
    edge i e = .refused .neverReset := by
  simp [edge, hrst, hreset]

theorem edge_of_not_holdsWord {i : PortIn} {e : Engine} (hreset : e.wasReset = true) (hrst : i.rst = false)
    (hholds : holdsWord e i = false) : edge i e = .refused .handshakeBroken := by
  simp [edge, hrst, hreset, hholds]

section
variable {i : PortIn} {e : Engine} (hreset : e.wasReset = true) (hrst : i.rst = false)
  (hholds : holdsWord e i = true)
include hreset hrst hholds

theorem edge_of_accept (hphase : e.phase = .idle) (hvalid : i.cmdValid = true) :
    edge i e = acceptWord i.cmd e := by
  simp [edge, hrst, hreset, hholds, hphase, hvalid]

theorem edge_of_rest (hphase : e.phase = .idle) (hvalid : i.cmdValid = false) :
    edge i e = .next { e with edges := e.edges + 1 } := by
  simp [edge, hrst, hreset, hholds, hphase, hvalid]

theorem edge_of_busy (hbusy : e.busy = true) : edge i e = .next (busyEdge i e) := by
  rcases busy_cases hbusy with ⟨left, after, hphase⟩ | ⟨r, after, hphase⟩
  · simp [edge, hrst, hreset, hholds, hphase]
  · simp [edge, hrst, hreset, hholds, hphase]

end

/-- The engine right after it accepts a word whose command ends in `t`. -/
def Engine.accepted (w : CmdWord) (t : State) (e : Engine) : Engine :=
  { e with phase := .working (workCycles w e.arch) t, hold := none, edges := e.edges + 1 }

theorem acceptWord_of_next {w : CmdWord} {t : State} {e : Engine} (hword : performWord w e.arch = .next t) :
    acceptWord w e = .next (e.accepted w t) := by
  rw [acceptWord, hword, Engine.accepted]

/-- An engine that was reset, with a host that keeps the handshake. -/
theorem edge_cases_of_holds {i : PortIn} {e e' : Engine} (hreset : e.wasReset = true) (hrst : i.rst = false)
    (hholds : holdsWord e i = true) (h : edge i e = .next e') :
    (e.phase = .idle ∧ i.cmdValid = true ∧
      ∃ t, performWord i.cmd e.arch = .next t ∧ e' = e.accepted i.cmd t) ∨
    (e.phase = .idle ∧ i.cmdValid = false ∧ e' = { e with edges := e.edges + 1 }) ∨
    (e.busy = true ∧ e' = busyEdge i e) := by
  by_cases hbusy : e.busy = true
  · have hedge := edge_of_busy hreset hrst hholds hbusy
    exact .inr (.inr ⟨hbusy, (Host.Outcome.next.inj (hedge.symm.trans h)).symm⟩)
  · have hphase := phase_eq_idle_of_not_busy hbusy
    cases hvalid : i.cmdValid with
    | true =>
      obtain ⟨t, hword⟩ := performWord_next i.cmd e.arch
      have hedge := (edge_of_accept hreset hrst hholds hphase hvalid).trans (acceptWord_of_next hword)
      exact .inl ⟨hphase, rfl, t, hword, (Host.Outcome.next.inj (hedge.symm.trans h)).symm⟩
    | false =>
      have hedge := edge_of_rest hreset hrst hholds hphase hvalid
      exact .inr (.inl ⟨hphase, rfl, (Host.Outcome.next.inj (hedge.symm.trans h)).symm⟩)

/-- Everything an edge with `rst = 0` can do: the other engines and hosts have no move. -/
theorem edge_cases_of_not_rst {i : PortIn} {e e' : Engine} (hrst : i.rst = false) (h : edge i e = .next e') :
    (e.phase = .idle ∧ i.cmdValid = true ∧
      ∃ t, performWord i.cmd e.arch = .next t ∧ e' = e.accepted i.cmd t) ∨
    (e.phase = .idle ∧ i.cmdValid = false ∧ e' = { e with edges := e.edges + 1 }) ∨
    (e.busy = true ∧ e' = busyEdge i e) := by
  rcases Bool.eq_false_or_eq_true e.wasReset with hreset | hreset
  · rcases Bool.eq_false_or_eq_true (holdsWord e i) with hholds | hholds
    · exact edge_cases_of_holds hreset hrst hholds h
    · cases (edge_of_not_holdsWord hreset hrst hholds).symm.trans h
  · cases (edge_of_not_wasReset hreset hrst).symm.trans h

/-- An edge is a reset edge or one with `rst = 0`. -/
theorem eq_resetEdge_or_not_rst {i : PortIn} {e e' : Engine} (h : edge i e = .next e') :
    e' = resetEdge e ∨ i.rst = false := by
  rcases Bool.eq_false_or_eq_true i.rst with hrst | hrst
  · exact .inl (Host.Outcome.next.inj ((edge_of_rst hrst e).symm.trans h)).symm
  · exact .inr hrst

/-! ### The busy engine -/

theorem newRecord_of_eq {s t : State} (hout : t.out = s.out) : newRecord s t = none := by
  simp [newRecord, hout]

theorem newRecord_of_append {s t : State} {r : Record} (hout : t.out = s.out ++ [r]) :
    newRecord s t = some r := by
  simp [newRecord, hout]

section
variable {i : PortIn} {e : Engine} {left : Nat} {after : State} {r : Record}

theorem busyEdge_of_working (hphase : e.phase = .working left after) (hleft : 1 < left) :
    (busyEdge i e).phase = .working (left - 1) after ∧ (busyEdge i e).arch = e.arch := by
  simp [busyEdge, advance, hphase, hleft.not_ge]

theorem busyEdge_of_lastCycle_quiet (hphase : e.phase = .working left after) (hleft : left ≤ 1)
    (hnone : newRecord e.arch after = none) :
    (busyEdge i e).phase = .idle ∧ (busyEdge i e).arch = after := by
  simp [busyEdge, advance, hphase, hleft, finishWork, hnone]

theorem busyEdge_of_lastCycle_record (hphase : e.phase = .working left after) (hleft : left ≤ 1)
    (hsome : newRecord e.arch after = some r) :
    (busyEdge i e).phase = .presenting r after ∧ (busyEdge i e).arch = e.arch := by
  simp [busyEdge, advance, hphase, hleft, finishWork, hsome]

theorem busyEdge_of_wait (hphase : e.phase = .presenting r after) (hready : i.resReady = false) :
    (busyEdge i e).phase = .presenting r after ∧ (busyEdge i e).arch = e.arch := by
  simp [busyEdge, advance, hphase, hready]

theorem busyEdge_of_transfer (hphase : e.phase = .presenting r after) (hready : i.resReady = true) :
    (busyEdge i e).phase = .idle ∧ (busyEdge i e).arch = after := by
  simp [busyEdge, advance, hphase, hready]

theorem finalState_of_idle (hphase : e.phase = .idle) : finalState e = e.arch := by
  rw [finalState, hphase]

theorem finalState_of_working (hphase : e.phase = .working left after) : finalState e = after := by
  rw [finalState, hphase]

theorem finalState_of_presenting (hphase : e.phase = .presenting r after) : finalState e = after := by
  rw [finalState, hphase]

/-- Wherever the command in flight is, a busy edge shows the old state or the final one, and keeps the final one. -/
theorem busyEdge_states (i : PortIn) (hbusy : e.busy = true) :
    finalState (busyEdge i e) = finalState e ∧
      ((busyEdge i e).arch = e.arch ∨ (busyEdge i e).arch = finalState e) := by
  rcases busy_cases hbusy with ⟨left, after, hphase⟩ | ⟨r, after, hphase⟩
  · rw [finalState_of_working hphase]
    rcases Nat.lt_or_ge 1 left with hleft | hleft
    · obtain ⟨hp, ha⟩ := busyEdge_of_working (i := i) hphase hleft
      exact ⟨finalState_of_working hp, .inl ha⟩
    · cases hrec : newRecord e.arch after with
      | none =>
        obtain ⟨hp, ha⟩ := busyEdge_of_lastCycle_quiet (i := i) hphase hleft hrec
        exact ⟨(finalState_of_idle hp).trans ha, .inr ha⟩
      | some r =>
        obtain ⟨hp, ha⟩ := busyEdge_of_lastCycle_record (i := i) hphase hleft hrec
        exact ⟨finalState_of_presenting hp, .inl ha⟩
  · rw [finalState_of_presenting hphase]
    cases hready : i.resReady with
    | false =>
      obtain ⟨hp, ha⟩ := busyEdge_of_wait hphase hready
      exact ⟨finalState_of_presenting hp, .inl ha⟩
    | true =>
      obtain ⟨hp, ha⟩ := busyEdge_of_transfer hphase hready
      exact ⟨(finalState_of_idle hp).trans ha, .inr ha⟩

end

/-! ### The invariant at the ports -/

theorem portInv_of_idle {e : Engine} (hphase : e.phase = .idle) (hinv : e.arch.Inv) : PortInv e := by
  rw [PortInv, finalState_of_idle hphase]
  exact ⟨hinv, hinv, rfl⟩

theorem portInv_accepted {w : CmdWord} {t : State} {e : Engine} (hinv : e.arch.Inv)
    (hword : performWord w e.arch = .next t) : PortInv (e.accepted w t) :=
  ⟨hinv, performWord_inv hinv hword, performWord_params hword⟩

theorem portInv_busyEdge (i : PortIn) {e : Engine} (hbusy : e.busy = true) (h : PortInv e) :
    PortInv (busyEdge i e) := by
  obtain ⟨harch, hfinal, hparams⟩ := h
  obtain ⟨hkeep, hshown⟩ := busyEdge_states i hbusy
  rw [PortInv, hkeep]
  rcases hshown with heq | heq <;> rw [heq]
  · exact ⟨harch, hfinal, hparams⟩
  · exact ⟨hfinal, hfinal, rfl⟩

/-- Settles O57: a reset starts from the reset state, an accepted word ends in a state that meets the invariant, and a
busy edge shows one of the two states it had. -/
theorem edgeKeepsTheInvariant : Obligations.EdgeKeepsTheInvariant := by
  unfold Obligations.EdgeKeepsTheInvariant
  intro e e' i h hedge
  have hinv : e.arch.Inv := h.1
  rcases eq_resetEdge_or_not_rst hedge with rfl | hrst
  · exact portInv_of_idle (resetEdge_phase e) (systemReset_inv hinv)
  rcases edge_cases_of_not_rst hrst hedge with ⟨-, -, t, hword, rfl⟩ | ⟨hphase, -, rfl⟩ | ⟨hbusy, rfl⟩
  · exact portInv_accepted hinv hword
  · exact portInv_of_idle hphase hinv
  · exact portInv_busyEdge i hbusy h

/-! ### Records on their way (R61, R237) -/

section
variable {e : Engine} {left : Nat} {after : State} {r : Record}

theorem owes_of_idle (hphase : e.phase = .idle) : Owes e := by
  rw [Owes, hphase]
  trivial

theorem owes_iff_of_working (hphase : e.phase = .working left after) :
    Owes e ↔ after.out = e.arch.out ∨ ∃ r, after.out = e.arch.out ++ [r] := by
  rw [Owes, hphase]
  constructor
  · rintro ⟨rs, hlen, hout⟩
    match rs, hlen with
    | [], _ => exact .inl (hout.trans (List.append_nil _))
    | [r], _ => exact .inr ⟨r, hout⟩
  · rintro (hout | ⟨r, hout⟩)
    · exact ⟨[], Nat.zero_le 1, hout.trans (List.append_nil _).symm⟩
    · exact ⟨[r], Nat.le_refl 1, hout⟩

theorem owes_iff_of_presenting (hphase : e.phase = .presenting r after) :
    Owes e ↔ after.out = e.arch.out ++ [r] := by
  rw [Owes, hphase]

end

theorem owes_accepted {w : CmdWord} {t : State} {e : Engine} (hword : performWord w e.arch = .next t) :
    Owes (e.accepted w t) :=
  (owes_iff_of_working rfl).2 (performWord_out hword)

section
variable {i : PortIn} {e : Engine} {left : Nat} {after : State}

/-- At the last cycle an engine that owes a record presents it, and one that owes none is done. -/
theorem busyEdge_of_lastCycle (howes : Owes e) (hphase : e.phase = .working left after) (hleft : left ≤ 1) :
    (after.out = e.arch.out ∧ (busyEdge i e).phase = .idle ∧ (busyEdge i e).arch = after) ∨
    ∃ r, after.out = e.arch.out ++ [r] ∧ (busyEdge i e).phase = .presenting r after ∧
      (busyEdge i e).arch = e.arch := by
  rcases (owes_iff_of_working hphase).1 howes with hout | ⟨r, hout⟩
  · exact .inl ⟨hout, busyEdge_of_lastCycle_quiet hphase hleft (newRecord_of_eq hout)⟩
  · exact .inr ⟨r, hout, busyEdge_of_lastCycle_record hphase hleft (newRecord_of_append hout)⟩

theorem owes_busyEdge (hbusy : e.busy = true) (howes : Owes e) : Owes (busyEdge i e) := by
  rcases busy_cases hbusy with ⟨left, after, hphase⟩ | ⟨r, after, hphase⟩
  · rcases Nat.lt_or_ge 1 left with hleft | hleft
    · obtain ⟨hp, ha⟩ := busyEdge_of_working (i := i) hphase hleft
      rw [owes_iff_of_working hp, ha]
      exact (owes_iff_of_working hphase).1 howes
    · rcases busyEdge_of_lastCycle (i := i) howes hphase hleft with ⟨-, hp, -⟩ | ⟨r, hout, hp, ha⟩
      · exact owes_of_idle hp
      · rw [owes_iff_of_presenting hp, ha]
        exact hout
  · cases hready : i.resReady with
    | false =>
      obtain ⟨hp, ha⟩ := busyEdge_of_wait hphase hready
      rw [owes_iff_of_presenting hp, ha]
      exact (owes_iff_of_presenting hphase).1 howes
    | true => exact owes_of_idle (busyEdge_of_transfer hphase hready).1

/-- OUT grows on a busy edge only by the transfer of the presented record. -/
theorem busyEdge_out (hbusy : e.busy = true) (howes : Owes e) :
    (busyEdge i e).arch.out = e.arch.out ∨
      ∃ r after, e.phase = .presenting r after ∧ i.resReady = true ∧
        (busyEdge i e).arch.out = e.arch.out ++ [r] := by
  rcases busy_cases hbusy with ⟨left, after, hphase⟩ | ⟨r, after, hphase⟩
  · left
    rcases Nat.lt_or_ge 1 left with hleft | hleft
    · rw [(busyEdge_of_working hphase hleft).2]
    · rcases busyEdge_of_lastCycle (i := i) howes hphase hleft with ⟨hout, -, ha⟩ | ⟨r, -, -, ha⟩
      · rw [ha, hout]
      · rw [ha]
  · cases hready : i.resReady with
    | false => exact .inl (congrArg State.out (busyEdge_of_wait hphase hready).2)
    | true =>
      obtain ⟨-, ha⟩ := busyEdge_of_transfer hphase hready
      exact .inr ⟨r, after, hphase, rfl, ha ▸ (owes_iff_of_presenting hphase).1 howes⟩

end

theorem owes_of_edge {i : PortIn} {e e' : Engine} (howes : Owes e) (hedge : edge i e = .next e') : Owes e' := by
  rcases eq_resetEdge_or_not_rst hedge with rfl | hrst
  · exact owes_of_idle (resetEdge_phase e)
  rcases edge_cases_of_not_rst hrst hedge with ⟨-, -, t, hword, rfl⟩ | ⟨hphase, -, rfl⟩ | ⟨hbusy, rfl⟩
  · exact owes_accepted hword
  · exact owes_of_idle hphase
  · exact owes_busyEdge hbusy howes

theorem edge_out {i : PortIn} {e e' : Engine} (hrst : i.rst = false) (howes : Owes e)
    (hedge : edge i e = .next e') :
    e'.arch.out = e.arch.out ∨ ∃ r after, e.phase = .presenting r after ∧ i.resReady = true ∧
      e'.arch.out = e.arch.out ++ [r] := by
  rcases edge_cases_of_not_rst hrst hedge with ⟨-, -, t, -, rfl⟩ | ⟨-, -, rfl⟩ | ⟨hbusy, rfl⟩
  · exact .inl rfl
  · exact .inl rfl
  · exact busyEdge_out hbusy howes

/-- An edge of an idle engine with a word on `cmd` accepts it. -/
theorem edge_accepts {i : PortIn} {e e' : Engine} (hrst : i.rst = false) (hphase : e.phase = .idle)
    (hvalid : i.cmdValid = true) (hedge : edge i e = .next e') :
    ∃ t, performWord i.cmd e.arch = .next t ∧ e' = e.accepted i.cmd t := by
  rcases edge_cases_of_not_rst hrst hedge with ⟨-, -, t, hword, rfl⟩ | ⟨-, hvalid', -⟩ | ⟨hbusy, -⟩
  · exact ⟨t, hword, rfl⟩
  · exact absurd (hvalid'.symm.trans hvalid) Bool.noConfusion
  · exact absurd hbusy (not_busy_of_idle hphase)

theorem eq_busyEdge_of_busy {i : PortIn} {e e' : Engine} (hrst : i.rst = false) (hbusy : e.busy = true)
    (hedge : edge i e = .next e') : e' = busyEdge i e := by
  rcases edge_cases_of_not_rst hrst hedge with ⟨hidle, -⟩ | ⟨hidle, -⟩ | ⟨-, heq⟩
  · exact absurd hbusy (not_busy_of_idle hidle)
  · exact absurd hbusy (not_busy_of_idle hidle)
  · exact heq

/-- Settles O49: what is owed is kept, and the record is followed from the acceptance to its transfer. -/
theorem recordsAreDeliveredOnce : Obligations.RecordsAreDeliveredOnce := by
  unfold Obligations.RecordsAreDeliveredOnce
  intro e e' i howes hedge
  refine ⟨owes_of_edge howes hedge, fun hrst => ⟨edge_out hrst howes hedge, ?_, ?_, ?_, ?_⟩⟩
  · intro hphase hvalid
    obtain ⟨t, hword, rfl⟩ := edge_accepts hrst hphase hvalid hedge
    exact ⟨_, t, rfl, hword⟩
  · intro left after hphase hleft
    obtain rfl := eq_busyEdge_of_busy hrst (busy_of_working hphase) hedge
    exact (busyEdge_of_working hphase hleft).1
  · intro left after hphase hleft
    obtain rfl := eq_busyEdge_of_busy hrst (busy_of_working hphase) hedge
    exact ⟨fun hout => (busyEdge_of_lastCycle_quiet hphase hleft (newRecord_of_eq hout)).1,
      fun r hout => (busyEdge_of_lastCycle_record hphase hleft (newRecord_of_append hout)).1⟩
  · intro r after hphase
    obtain rfl := eq_busyEdge_of_busy hrst (busy_of_presenting hphase) hedge
    refine ⟨fun hready => (busyEdge_of_wait hphase hready).1, fun hready => ?_⟩
    obtain ⟨hp, ha⟩ := busyEdge_of_transfer hphase hready
    exact ⟨hp, ha ▸ (owes_iff_of_presenting hphase).1 howes⟩

/-! ### Refusals, the handshakes and the reset edge -/

/-- Settles O52: `edge` meets the two refusals before it looks at the phase. -/
theorem unresetBlocksAndBrokenHandshakesAreRefused :
    Obligations.UnresetBlocksAndBrokenHandshakesAreRefused := by
  unfold Obligations.UnresetBlocksAndBrokenHandshakesAreRefused
  refine ⟨fun e i hreset hrst => edge_of_not_wasReset hreset hrst, fun e i w hreset hheld hrst hbroken => ?_⟩
  refine edge_of_not_holdsWord hreset hrst ?_
  rw [holdsWord, hheld]
  simpa [imp_iff_not_or] using hbroken

/-- Settles O56: `resetEdge` does not read the held word. -/
theorem resetEdgeForgetsTheHeldWord : Obligations.ResetEdgeForgetsTheHeldWord := by
  unfold Obligations.ResetEdgeForgetsTheHeldWord
  refine fun e i hrst => ⟨fun held => ?_, resetEdge e, edge_of_rst hrst e, resetEdge_hold e, ?_, ?_⟩
  · rw [edge_of_rst hrst, edge_of_rst hrst]
    rfl
  · rw [resetEdge_arch, systemReset_params]
  · rw [resetEdge_arch, systemReset_inbox]

theorem outputs_of_presenting {e : Engine} {r : Record} {after : State} (hreset : e.wasReset = true)
    (hphase : e.phase = .presenting r after) :
    outputs false e = .next { quietOutputs false (statusWord true e.arch.err e.arch.cause) e with
      resValid := true, resSrc := sourceBit r.src, resData := r.data } := by
  simp [outputs, hreset, hphase, Engine.busy, quietOutputs]

theorem outputs_of_working {e : Engine} {left : Nat} {after : State} (hreset : e.wasReset = true)
    (hphase : e.phase = .working left after) :
    outputs false e = .next (quietOutputs false (statusWord true e.arch.err e.arch.cause) e) := by
  simp [outputs, hreset, hphase, Engine.busy]

/-- Settles O47: the outputs of a presenting engine, and its busy edge with and without `res_ready`. -/
theorem recordWaitsForTheHost : Obligations.RecordWaitsForTheHost := by
  unfold Obligations.RecordWaitsForTheHost
  intro e i r after hreset hphase hrst hholds
  exact ⟨⟨_, outputs_of_presenting hreset hphase, rfl, rfl, rfl, rfl⟩, _,
    edge_of_busy hreset hrst hholds (busy_of_presenting hphase), busyEdge_of_wait hphase, busyEdge_of_transfer hphase⟩

theorem outputs_of_busy {e : Engine} (hreset : e.wasReset = true) (hbusy : e.busy = true) :
    ∃ o, outputs false e = .next o ∧ o.cmdReady = false ∧ o.status.extractLsb' 0 1 = 1#1 := by
  have hbit := (statusWord_fields true e.arch.err e.arch.cause).1
  rcases busy_cases hbusy with ⟨left, after, hphase⟩ | ⟨r, after, hphase⟩
  · exact ⟨_, outputs_of_working hreset hphase, rfl, hbit⟩
  · exact ⟨_, outputs_of_presenting hreset hphase, rfl, hbit⟩

/-- Settles O48: `advance` reads `res_ready` alone of what the host drives. -/
theorem busyEngineTakesNoWord : Obligations.BusyEngineTakesNoWord := by
  unfold Obligations.BusyEngineTakesNoWord
  intro e i₁ i₂ hreset hbusy hrst₁ hrst₂ hready hholds₁ hholds₂
  refine ⟨outputs_of_busy hreset hbusy, _, _, edge_of_busy hreset hrst₁ hholds₁ hbusy,
    edge_of_busy hreset hrst₂ hholds₂ hbusy, ?_, ?_⟩
  · rw [busyEdge, busyEdge, hready]
  · rw [busyEdge, busyEdge, hready]

end Sys2Proof.Machine

/-! PROOF. A command at the ports from its acceptance to its last effect (70_reset_and_hazards.md R234 to R239): the
cycles of R238 are the engine's `workCycles`, and a busy engine counts them down whatever the host presents. -/

namespace Sys2Proof.Machine

open Sys2Proof.Claims

/-! ### The table of R238 -/

theorem tableCycles_of_reservedOp {w : CmdWord} {s : State} (hres : reservedOp s.params.harvester (opField w)) :
    tableCycles w s = 1 := by
  have hdigest : opField w ≠ 0x02#8 := by
    rintro hop
    simp [reservedOp, hop] at hres
  have hupd : ¬ (0x10 ≤ (opField w).toNat ∧ (opField w).toNat ≤ 0x17) := by
    unfold reservedOp at hres
    omega
  have hsmpl : ¬ (opField w = 0x20#8 ∧ s.params.harvester = .present ∧ s.ns ≠ BitVec.allOnes 64 ∧
      (s.win.length = 511 ∨ s.win.length = 512)) := by
    rintro ⟨hop, hp, -⟩
    simp [reservedOp, hop, hp] at hres
  rw [tableCycles, if_neg hdigest, if_neg hupd, if_neg hsmpl]

/-- A push fills the window from 511 bits or keeps it full. -/
theorem pushBit_length_eq_winCapacity_iff (win : List Bool) (bit : Bool) :
    (pushBit win bit).length = winCapacity ↔ win.length = 511 ∨ win.length = 512 := by
  have hcap : winCapacity = 512 := rfl
  rw [pushBit_length]
  split <;> omega

theorem tableCycles_of_smpl {w : CmdWord} {s : State} (data : Word64) (hop : opField w = 0x20#8)
    (hp : s.params.harvester = .present) :
    tableCycles w s = 1 + compressionsOf (.smpl data) s * s.params.latC := by
  have hdigest : opField w ≠ 0x02#8 := by rw [hop]; decide
  have hupd : ¬ (0x10 ≤ (opField w).toNat ∧ (opField w).toNat ≤ 0x17) := by rw [hop]; decide
  rw [tableCycles, if_neg hdigest, if_neg hupd]
  simp only [hop, hp, true_and, compressionsOf, pushBit_length_eq_winCapacity_iff]
  by_cases hns : s.ns = BitVec.allOnes 64
  · rw [if_neg fun h => h.1 hns, if_pos hns, Nat.zero_mul]
  · by_cases hfull : s.win.length = 511 ∨ s.win.length = 512
    · rw [if_pos ⟨hns, hfull⟩, if_neg hns, if_pos hfull]
    · rw [if_neg fun h => hfull h.2, if_neg hns, if_neg hfull, Nat.zero_mul]

theorem tableCycles_of_upd {w : CmdWord} {s : State} {n : Nat} (hop : (opField w).toNat = 0x0F + n) (h1 : 1 ≤ n)
    (h8 : n ≤ 8) :
    tableCycles w s = 1 + (if 64 ≤ s.fill.val + n then 1 else 0) * s.params.latC := by
  have hdigest : opField w ≠ 0x02#8 := by bv_omega
  have hn : (opField w).toNat - 0x0F = n := by omega
  rw [tableCycles, if_neg hdigest, if_pos (by omega), hn]
  by_cases hroom : s.fill.val + n < 64
  · simp [hroom, hroom.not_ge]
  · simp [hroom, Nat.le_of_not_lt hroom]

theorem tableCycles_of_command {w : CmdWord} {s : State} {i : Instr}
    (hdec : decode s.params.harvester w = .command i) :
    tableCycles w s = 1 + compressionsOf i s * s.params.latC := by
  have hop := opField_of_decode hdec
  cases i
  case smpl data =>
    obtain ⟨hwf, -⟩ := (decode_eq_command_iff _ _ _).1 hdec
    exact tableCycles_of_smpl data hop (of_decide_eq_true hwf)
  case nop | reset => simp [tableCycles, hop, Instr.opcode, compressionsOf]
  case digest =>
    simp only [tableCycles, hop, Instr.opcode, compressionsOf, if_true]
    split <;> simp
  all_goals exact tableCycles_of_upd (by rw [hop]; rfl) (by decide) (by decide)

theorem workCycles_eq_tableCycles (w : CmdWord) (s : State) : workCycles w s = tableCycles w s := by
  unfold workCycles
  split
  · next i hdec => exact (tableCycles_of_command hdec).symm
  · next op hdec =>
    obtain ⟨-, hres⟩ : IsReadingOf _ w (.reserved op) := hdec ▸ decode_isReadingOf _ w
    exact (tableCycles_of_reservedOp hres).symm

theorem one_le_workCycles (w : CmdWord) (s : State) : 1 ≤ workCycles w s := by
  unfold workCycles
  split <;> omega

/-! ### Runs of edges -/

theorem edges_cons {i : PortIn} {e e₁ : Engine} (rest : List PortIn) (h : edge i e = .next e₁) :
    edges (i :: rest) e = edges rest e₁ := by
  rw [edges, h]

theorem edges_append {xs : List PortIn} {e e₁ : Engine} (ys : List PortIn) (h : edges xs e = .next e₁) :
    edges (xs ++ ys) e = edges ys e₁ := by
  induction xs generalizing e with
  | nil =>
    cases h
    rfl
  | cons i rest ih =>
    rw [edges] at h
    cases hedge : edge i e with
    | next e' =>
      rw [hedge] at h
      rw [List.cons_append, edges_cons _ hedge, ih h]
    | fault r => rw [hedge] at h; cases h
    | refused r => rw [hedge] at h; cases h

/-- The word the host holds after edges on which the engine takes none. -/
def heldAfter : Option CmdWord → List PortIn → Option CmdWord
  | held, [] => held
  | _, i :: rest => heldAfter (if i.cmdValid then some i.cmd else none) rest

theorem hostKeeps_append (held : Option CmdWord) (xs ys : List PortIn) :
    HostKeeps held (xs ++ ys) ↔ HostKeeps held xs ∧ HostKeeps (heldAfter held xs) ys := by
  induction xs generalizing held with
  | nil => simp [HostKeeps, heldAfter]
  | cons i rest ih => simp only [List.cons_append, HostKeeps, heldAfter, ih, and_assoc]

theorem hostKeeps_take {held : Option CmdWord} {xs : List PortIn} (h : HostKeeps held xs) (m : Nat) :
    HostKeeps held (xs.take m) := by
  rw [← List.take_append_drop m xs, hostKeeps_append] at h
  exact h.1

/-- A host that keeps R234 drives no reset and the word it holds. -/
theorem hostKeeps_head {e : Engine} {i : PortIn} {rest : List PortIn} (h : HostKeeps e.hold (i :: rest)) :
    i.rst = false ∧ holdsWord e i = true := by
  obtain ⟨hrst, hheld, -⟩ := h
  refine ⟨hrst, ?_⟩
  unfold holdsWord
  split
  · rfl
  · next w hw =>
    obtain ⟨hvalid, hcmd⟩ := hheld w hw
    simp [hvalid, hcmd]

theorem hostKeeps_tail {e : Engine} {i : PortIn} {rest : List PortIn} (h : HostKeeps e.hold (i :: rest)) :
    HostKeeps (busyEdge i e).hold rest := h.2.2

/-- The first edge of a run from a busy engine. -/
theorem edges_cons_of_busy {e : Engine} {i : PortIn} {rest : List PortIn} (hreset : e.wasReset = true)
    (hbusy : e.busy = true) (hkeeps : HostKeeps e.hold (i :: rest)) :
    edges (i :: rest) e = edges rest (busyEdge i e) := by
  obtain ⟨hrst, hholds⟩ := hostKeeps_head hkeeps
  exact edges_cons rest (edge_of_busy hreset hrst hholds hbusy)

theorem advance_wasReset (ready : Bool) (e : Engine) : (advance ready e).wasReset = e.wasReset := by
  unfold advance finishWork
  repeat' split
  all_goals rfl

theorem busyEdge_wasReset {i : PortIn} {e : Engine} (hreset : e.wasReset = true) :
    (busyEdge i e).wasReset = true :=
  (advance_wasReset i.resReady e).trans hreset

/-- Before the last cycle the engine counts down and shows the old state. -/
theorem edges_of_working {ins : List PortIn} {e : Engine} {left : Nat} {after : State}
    (hreset : e.wasReset = true) (hphase : e.phase = .working left after) (hkeeps : HostKeeps e.hold ins)
    (hlen : ins.length < left) :
    ∃ e', edges ins e = .next e' ∧ e'.busy = true ∧ e'.arch = e.arch := by
  induction ins generalizing e left with
  | nil => exact ⟨e, rfl, busy_of_working hphase, rfl⟩
  | cons i rest ih =>
    rw [List.length_cons] at hlen
    obtain ⟨hp, ha⟩ := busyEdge_of_working (i := i) hphase (by omega)
    obtain ⟨e', hrun, hbusy, harch⟩ := ih (busyEdge_wasReset hreset) hp (hostKeeps_tail hkeeps) (by omega)
    exact ⟨e', (edges_cons_of_busy hreset (busy_of_working hphase) hkeeps).trans hrun, hbusy,
      harch.trans ha⟩

/-- The last cycle makes the last effect, or presents the record. -/
theorem edges_of_working_to_end {ins : List PortIn} {e : Engine} {left : Nat} {after : State}
    (hreset : e.wasReset = true) (hphase : e.phase = .working left after) (hkeeps : HostKeeps e.hold ins)
    (hlen : ins.length = left) (hleft : 1 ≤ left) :
    ∃ e', edges ins e = .next e' ∧ e'.wasReset = true ∧ e'.hold = heldAfter e.hold ins ∧
      (newRecord e.arch after = none → e'.phase = .idle ∧ e'.arch = after) ∧
      (∀ r, newRecord e.arch after = some r → e'.phase = .presenting r after ∧ e'.arch = e.arch) := by
  induction ins generalizing e left with
  | nil =>
    subst hlen
    exact absurd hleft (Nat.not_succ_le_zero 0)
  | cons i rest ih =>
    have hrun := edges_cons_of_busy hreset (busy_of_working hphase) hkeeps
    rw [List.length_cons] at hlen
    cases rest with
    | nil =>
      have hone : left ≤ 1 := hlen.ge
      exact ⟨busyEdge i e, hrun, busyEdge_wasReset hreset, rfl, busyEdge_of_lastCycle_quiet hphase hone,
        fun r => busyEdge_of_lastCycle_record hphase hone⟩
    | cons i' rest =>
      rw [List.length_cons] at hlen
      obtain ⟨hp, ha⟩ := busyEdge_of_working (i := i) hphase (by omega)
      obtain ⟨e', hrest, hreset', hhold, hnone, hsome⟩ := ih (busyEdge_wasReset hreset) hp (hostKeeps_tail hkeeps)
        (by rw [List.length_cons]; omega) (by omega)
      rw [ha] at hnone hsome
      exact ⟨e', hrun.trans hrest, hreset', hhold, hnone, hsome⟩

/-- While the host does not take it the record stays presented. -/
theorem edges_of_waits {waits : List PortIn} {e : Engine} {r : Record} {after : State}
    (hreset : e.wasReset = true) (hphase : e.phase = .presenting r after) (hkeeps : HostKeeps e.hold waits)
    (hwaits : ∀ i ∈ waits, i.resReady = false) :
    ∃ e', edges waits e = .next e' ∧ e'.wasReset = true ∧ e'.hold = heldAfter e.hold waits ∧
      e'.phase = .presenting r after ∧ e'.arch = e.arch := by
  induction waits generalizing e with
  | nil => exact ⟨e, rfl, hreset, rfl, hphase, rfl⟩
  | cons i rest ih =>
    obtain ⟨hi, hrest⟩ := List.forall_mem_cons.1 hwaits
    obtain ⟨hp, ha⟩ := busyEdge_of_wait hphase hi
    obtain ⟨e', hrun, hreset', hhold, hp', ha'⟩ := ih (busyEdge_wasReset hreset) hp (hostKeeps_tail hkeeps) hrest
    exact ⟨e', (edges_cons_of_busy hreset (busy_of_presenting hphase) hkeeps).trans hrun, hreset', hhold, hp',
      ha'.trans ha⟩

/-- The edge on which the host takes the record frees the engine. -/
theorem edges_of_transfer {last : PortIn} {e : Engine} {r : Record} {after : State} (hreset : e.wasReset = true)
    (hphase : e.phase = .presenting r after) (hkeeps : HostKeeps e.hold [last]) (hready : last.resReady = true) :
    ∃ e', edges [last] e = .next e' ∧ e'.phase = .idle ∧ e'.arch = after :=
  ⟨_, edges_cons_of_busy hreset (busy_of_presenting hphase) hkeeps, busyEdge_of_transfer hphase hready⟩

/-! ### From the acceptance on -/

/-- An accepted word starts its command. -/
theorem edges_cons_of_accept {e : Engine} {first : PortIn} {t : State} (hreset : e.wasReset = true)
    (hphase : e.phase = .idle) (hrst : first.rst = false) (hvalid : first.cmdValid = true)
    (hholds : holdsWord e first = true) (hword : performWord first.cmd e.arch = .next t) (ins : List PortIn) :
    edges (first :: ins) e = edges ins (e.accepted first.cmd t) :=
  edges_cons ins ((edge_of_accept hreset hrst hholds hphase hvalid).trans (acceptWord_of_next hword))

theorem accepted_phase (w : CmdWord) (t : State) (e : Engine) :
    (e.accepted w t).phase = .working (tableCycles w e.arch) t := by
  rw [Engine.accepted, workCycles_eq_tableCycles]

theorem one_le_tableCycles (w : CmdWord) (s : State) : 1 ≤ tableCycles w s :=
  workCycles_eq_tableCycles w s ▸ one_le_workCycles w s

/-- Settles O46: the countdown, its last cycle, and the wait of the record for the host, one after the other. -/
theorem portRunPerformsTheCommand : Obligations.PortRunPerformsTheCommand := by
  unfold Obligations.PortRunPerformsTheCommand
  intro e first ins t hreset hphase hrst hvalid hholds hword hkeeps hlen
  have hstart := edges_cons_of_accept hreset hphase hrst hvalid hholds hword
  have hworking := accepted_phase first.cmd t e
  refine ⟨fun m hm => ?_, ?_⟩
  · rw [hstart]
    exact edges_of_working hreset hworking (hostKeeps_take hkeeps m) (by rw [List.length_take]; omega)
  · obtain ⟨e', hrun, hreset', -, hquiet, hrecord⟩ := edges_of_working_to_end (e := e.accepted first.cmd t)
      hreset hworking hkeeps hlen (one_le_tableCycles _ _)
    have hrun' := (hstart ins).trans hrun
    refine ⟨e', hrun', hreset', fun hout => hquiet (newRecord_of_eq hout), ?_⟩
    intro r hout waits last hkeeps' hwaits hready
    obtain ⟨hp, ha⟩ := hrecord r (newRecord_of_append hout)
    obtain ⟨hkeepsWaits, hkeepsLast⟩ := (hostKeeps_append _ _ _).1 hkeeps'
    refine ⟨fun m _ => ?_, ?_⟩
    · obtain ⟨em, hrunm, -, -, hpm, ham⟩ := edges_of_waits hreset' hp (hostKeeps_take hkeepsWaits m)
        fun i hi => hwaits i (List.mem_of_mem_take hi)
      exact ⟨em, (edges_append _ hrun').trans hrunm, hpm, ham.trans ha⟩
    · obtain ⟨em, hrunm, hresetm, hholdm, hpm, -⟩ := edges_of_waits hreset' hp hkeepsWaits hwaits
      obtain ⟨e'', hrunLast, hidle, harch⟩ := edges_of_transfer hresetm hpm (hholdm ▸ hkeepsLast) hready
      have hrunWaits := (edges_append waits hrun').trans hrunm
      exact ⟨e'', (edges_append [last] hrunWaits).trans hrunLast, hidle, harch⟩

/-! ### Completion when the host takes records at once (R239) -/

/-- With `res_ready` = 1 every busy edge brings the engine nearer to idle. -/
theorem edgesLeft_busyEdge_lt {i : PortIn} {e : Engine} (hbusy : e.busy = true) (hready : i.resReady = true) :
    edgesLeft (busyEdge i e) < edgesLeft e := by
  rcases busy_cases hbusy with ⟨left, after, hphase⟩ | ⟨r, after, hphase⟩
  · rcases Nat.lt_or_ge 1 left with hleft | hleft
    · simp only [edgesLeft, hphase, (busyEdge_of_working (i := i) hphase hleft).1]
      omega
    · cases hrec : newRecord e.arch after with
      | none =>
        simp only [edgesLeft, hphase, (busyEdge_of_lastCycle_quiet (i := i) hphase hleft hrec).1]
        omega
      | some r =>
        simp only [edgesLeft, hphase, (busyEdge_of_lastCycle_record (i := i) hphase hleft hrec).1]
        omega
  · simp only [edgesLeft, hphase, (busyEdge_of_transfer hphase hready).1]
    omega

theorem edgesLeft_pos {e : Engine} (hbusy : e.busy = true) : 0 < edgesLeft e := by
  rcases busy_cases hbusy with ⟨left, after, hphase⟩ | ⟨r, after, hphase⟩
  · simp [edgesLeft, hphase]
  · simp [edgesLeft, hphase]

theorem edges_complete {ins : List PortIn} {e : Engine} (hreset : e.wasReset = true)
    (hkeeps : HostKeeps e.hold ins) (hready : ∀ i ∈ ins, i.resReady = true) (hlen : edgesLeft e ≤ ins.length) :
    ∃ n e', n ≤ edgesLeft e ∧ edges (ins.take n) e = .next e' ∧ e'.phase = .idle ∧ e'.arch = finalState e := by
  by_cases hbusy : e.busy = true
  · cases ins with
    | nil => exact absurd (edgesLeft_pos hbusy) hlen.not_gt
    | cons i rest =>
      obtain ⟨hi, hrest⟩ := List.forall_mem_cons.1 hready
      have hless := edgesLeft_busyEdge_lt hbusy hi
      rw [List.length_cons] at hlen
      obtain ⟨n, e', hn, hrun, hidle, harch⟩ := edges_complete (busyEdge_wasReset hreset)
        (hostKeeps_tail hkeeps) hrest (by omega)
      refine ⟨n + 1, e', by omega, ?_, hidle, harch.trans (busyEdge_states i hbusy).1⟩
      rw [List.take_succ_cons, edges_cons_of_busy hreset hbusy (hostKeeps_take hkeeps (n + 1)), hrun]
  · have hphase := phase_eq_idle_of_not_busy hbusy
    exact ⟨0, e, Nat.zero_le _, rfl, hphase, (finalState_of_idle hphase).symm⟩
termination_by ins.length

/-- An accepted command that makes no record is done at the end of its cycles, one that makes a record an edge later. -/
theorem edges_of_accepted_word {e : Engine} {first : PortIn} {ins : List PortIn} {t : State}
    (hreset : e.wasReset = true) (hphase : e.phase = .idle) (hrst : first.rst = false)
    (hvalid : first.cmdValid = true) (hholds : holdsWord e first = true)
    (hword : performWord first.cmd e.arch = .next t) (hkeeps : HostKeeps none ins)
    (hready : ∀ i ∈ ins, i.resReady = true)
    (hlen : ins.length = tableCycles first.cmd e.arch + (t.out.length - e.arch.out.length)) :
    ∃ e', edges (first :: ins) e = .next e' ∧ e'.phase = .idle ∧ e'.arch = t := by
  have hworking := accepted_phase first.cmd t e
  rw [edges_cons_of_accept hreset hphase hrst hvalid hholds hword]
  rcases performWord_out hword with hout | ⟨r, hout⟩
  · obtain ⟨e', hrun, -, -, hquiet, -⟩ := edges_of_working_to_end (e := e.accepted first.cmd t)
      hreset hworking hkeeps (by simpa [hout] using hlen) (one_le_tableCycles _ _)
    exact ⟨e', hrun, hquiet (newRecord_of_eq hout)⟩
  · have hlen' : ins.length = tableCycles first.cmd e.arch + 1 := by simpa [hout] using hlen
    obtain ⟨work, last, rfl⟩ : ∃ work last, ins = work ++ [last] :=
      ins.eq_nil_or_concat'.resolve_left (List.ne_nil_of_length_eq_add_one hlen')
    obtain ⟨hkeepsWork, hkeepsLast⟩ := (hostKeeps_append _ _ _).1 hkeeps
    obtain ⟨e', hrun, hreset', hhold, -, hrecord⟩ := edges_of_working_to_end (e := e.accepted first.cmd t)
      hreset hworking hkeepsWork (by simpa using hlen') (one_le_tableCycles _ _)
    obtain ⟨hp, -⟩ := hrecord r (newRecord_of_append hout)
    rw [edges_append _ hrun]
    exact edges_of_transfer hreset' hp (hhold ▸ hkeepsLast) (hready last (by simp))

/-- Settles O51: a busy engine comes nearer to idle at every edge, and an accepted word is done in its cycles. -/
theorem acceptedCommandsComplete : Obligations.AcceptedCommandsComplete := by
  unfold Obligations.AcceptedCommandsComplete
  exact ⟨fun e ins hreset hkeeps hready hlen => edges_complete hreset hkeeps hready hlen,
    fun e first ins t hreset hphase hrst hvalid hholds hword hkeeps hready hlen =>
      edges_of_accepted_word hreset hphase hrst hvalid hholds hword hkeeps hready hlen⟩

end Sys2Proof.Machine

/-! PROOF. The rolling schedule, the iterative and the pipelined datapath (40_compression.md R112, R114, R115). The rolled
window is a piece of the schedule, and each datapath's registers are told for every number of rounds done: the iterative
one holds `iterAt`, a flight in the pipeline is `flightAt`. -/

namespace Sys2Proof.Machine

/-! ### The rolling window (R112) -/

theorem getD_take_drop (ws : List Word) (n : Nat) {i : Nat} (hi : i < 16) :
    ((ws.drop n).take 16).getD i 0 = ws.getD (n + i) 0 := by
  simp [List.getD_eq_getElem?_getD, List.getElem?_take_of_lt hi]

/-- The new word of a window of the schedule is the schedule's next word. -/
theorem rollingWord_take_drop_schedule (blk : Block) {n : Nat} (hn : n + 16 < 64) :
    rollingWord (((schedule blk).drop n).take 16) = (schedule blk).getD (n + 16) 0 := by
  obtain ⟨-, -, hrec⟩ := scheduleFollowsTheRecurrence blk
  have hnext := hrec (n + 16) (by omega) hn
  have h2 : n + 16 - 2 = n + 14 := by omega
  have h7 : n + 16 - 7 = n + 9 := by omega
  have h15 : n + 16 - 15 = n + 1 := by omega
  have h16 : n + 16 - 16 = n + 0 := by omega
  rw [h2, h7, h15, h16] at hnext
  rw [hnext, rollingWord]
  iterate 4 rw [getD_take_drop _ _ (by decide)]

theorem drop_take_append_getD (ws : List Word) {n : Nat} (hn : n + 16 < ws.length) :
    ((ws.drop n).take 16).drop 1 ++ [ws.getD (n + 16) 0] = (ws.drop (n + 1)).take 16 := by
  rw [List.drop_take, List.drop_drop, List.take_add_one (i := 15)]
  simp [hn, Nat.add_assoc]

theorem rolledWindow_eq (blk : Block) {n : Nat} (hn : n ≤ 48) :
    rolledWindow blk n = ((schedule blk).drop n).take 16 := by
  induction n with
  | zero =>
    rw [rolledWindow, List.drop_zero, schedule, ← firstWords_length blk, take_extendSchedule]
  | succ n ih =>
    rw [rolledWindow, ih (by omega), rollWindow, rollingWord_take_drop_schedule blk (by omega),
      drop_take_append_getD _ (by rw [schedule_length]; omega)]

theorem rolledWindow_getD (blk : Block) {n i : Nat} (hn : n ≤ 48) (hi : i < 16) :
    (rolledWindow blk n).getD i 0 = (schedule blk).getD (n + i) 0 := by
  rw [rolledWindow_eq blk hn, getD_take_drop _ _ hi]

theorem rollingWord_rolledWindow (blk : Block) {n : Nat} (hn : n < 48) :
    rollingWord (rolledWindow blk n) = (schedule blk).getD (n + 16) 0 := by
  rw [rolledWindow_eq blk hn.le, rollingWord_take_drop_schedule blk (by omega)]

/-- Settles O29: the window is 16 words of the schedule, and its new word the recurrence's. -/
theorem rollingScheduleIsTheSchedule : Obligations.RollingScheduleIsTheSchedule := by
  unfold Obligations.RollingScheduleIsTheSchedule
  intro blk t h16 h64
  refine ⟨fun i hi => rolledWindow_getD blk (by omega) hi, ?_⟩
  rw [rollingWord_rolledWindow blk (by omega), Nat.sub_add_cancel h16]

/-! ### The iterative datapath (R114) -/

/-- The registers after `m` rounds. The window is loaded for 16 rounds and rolls from then on. -/
def iterAt (hv : HashWords) (blk : Block) (m : Nat) : IterState :=
  { t := m, vars := roundsUpTo (schedule blk) m hv, win := rolledWindow blk (m - 16) }

theorem iterLoad_eq_iterAt (hv : HashWords) (blk : Block) : iterLoad hv blk = iterAt hv blk 0 := rfl

theorem iterStage_iterAt (hv : HashWords) (blk : Block) {m : Nat} (hm : m < 64) :
    iterStage (iterAt hv blk m) = iterAt hv blk (m + 1) := by
  by_cases h16 : m < 16
  · have hword : (rolledWindow blk (m - 16)).getD m 0 = (schedule blk).getD m 0 := by
      rw [Nat.sub_eq_zero_of_le h16.le, rolledWindow_getD blk (Nat.zero_le _) h16, Nat.zero_add]
    have hwin : m + 1 - 16 = m - 16 := by omega
    simp only [iterStage, iterAt, h16, if_true, hword, hwin, roundsUpTo_succ]
  · have hword : rollingWord (rolledWindow blk (m - 16)) = (schedule blk).getD m 0 := by
      rw [rollingWord_rolledWindow blk (by omega), Nat.sub_add_cancel (Nat.le_of_not_lt h16)]
    have hwin : m + 1 - 16 = m - 16 + 1 := by omega
    simp only [iterStage, iterAt, h16, if_false, hword, hwin, roundsUpTo_succ, rolledWindow]

theorem iterCycle_iterAt (hv : HashWords) (blk : Block) {k m : Nat} (hm : m + k ≤ 64) :
    iterCycle k (iterAt hv blk m) = iterAt hv blk (m + k) := by
  induction k generalizing m with
  | zero => rfl
  | succ k ih =>
    rw [iterCycle, iterStage_iterAt hv blk (by omega), ih (by omega)]
    congr 1
    omega

theorem iterCycles_iterLoad (hv : HashWords) (blk : Block) {k n : Nat} (hn : k * n ≤ 64) :
    iterCycles k n (iterLoad hv blk) = iterAt hv blk (k * n) := by
  induction n with
  | zero => exact iterLoad_eq_iterAt hv blk
  | succ n ih =>
    rw [Nat.mul_succ] at hn
    rw [iterCycles, ih (by omega), iterCycle_iterAt hv blk hn, Nat.mul_succ]

theorem iterativeWidths_divide : ∀ k ∈ iterativeWidths, k * (64 / k) = 64 := by decide

theorem iterative_eq_compress (hv : HashWords) (blk : Block) {k : Nat} (hk : k ∈ iterativeWidths) :
    iterative k hv blk = compress hv blk := by
  have h64 := iterativeWidths_divide k hk
  rw [iterative, iterCycles_iterLoad hv blk h64.le, h64, iterAt, compress]

/-- Settles O31: after `n` cycles of a width that divides 64 the registers are those after `k n` rounds. -/
theorem iterativeDatapathIsCompress : Obligations.IterativeDatapathIsCompress := by
  unfold Obligations.IterativeDatapathIsCompress
  refine fun k hv blk hk => ⟨iterative_eq_compress hv blk hk, fun n hn => ?_⟩
  have hle : k * n ≤ 64 := (Nat.mul_le_mul_left k hn).trans (iterativeWidths_divide k hk).le
  rw [iterCycles_iterLoad hv blk hle]
  exact ⟨rfl, rfl⟩

/-! ### The pipelined datapath (R115) -/

/-- What a stage register holds for an input after `n` rounds. -/
def flightAt (hv : HashWords) (blk : Block) (n : Nat) : Flight :=
  { vars := roundsUpTo (schedule blk) n hv, chain := hv, words := (schedule blk).drop n }

theorem flightOf_eq_flightAt (hv : HashWords) (blk : Block) : flightOf hv blk = flightAt hv blk 0 := rfl

theorem pipeStage_flightAt (hv : HashWords) (blk : Block) (n : Nat) :
    pipeStage n (flightAt hv blk n) = flightAt hv blk (n + 1) := by
  have hhead : ((schedule blk).drop n).headD 0 = (schedule blk).getD n 0 := by
    rw [List.headD_eq_head?_getD, List.head?_drop, List.getD_eq_getElem?_getD]
  rw [pipeStage, flightAt, hhead, List.drop_drop]
  rfl

theorem getElem_pipeClock_zero (input : Option Flight) (regs : Vector (Option Flight) 64) :
    (pipeClock input regs)[0] = input.map (pipeStage 0) := by
  simp [pipeClock]

theorem getElem_pipeClock_succ (input : Option Flight) (regs : Vector (Option Flight) 64) (n : Nat)
    (hn : n + 1 < 64) : (pipeClock input regs)[n + 1] = regs[n].map (pipeStage (n + 1)) := by
  simp [pipeClock]

theorem pipeRun_concat (xs : List (Option Flight)) (x : Option Flight) (regs : Vector (Option Flight) 64) :
    pipeRun (xs ++ [x]) regs = pipeClock x (pipeRun xs regs) := List.foldl_concat _ _ _ _

/-- An input moves one stage a clock, whatever is before and behind it. -/
theorem getElem_pipeRun (hv : HashWords) (blk : Block) (behind : List (Option Flight))
    (regs : Vector (Option Flight) 64) (hlen : behind.length < 64) :
    (pipeRun (some (flightOf hv blk) :: behind) regs)[behind.length] =
      some (flightAt hv blk (behind.length + 1)) := by
  induction behind using List.reverseRecOn with
  | nil =>
    rw [pipeRun, List.foldl_cons, List.foldl_nil]
    simp only [List.length_nil]
    rw [getElem_pipeClock_zero, flightOf_eq_flightAt, Option.map_some, pipeStage_flightAt]
  | append_singleton behind input ih =>
    rw [List.length_append, List.length_singleton] at hlen
    have hmoved := ih (by omega)
    simp only [List.length_append, List.length_singleton, ← List.cons_append, pipeRun_concat]
    rw [getElem_pipeClock_succ _ _ _ hlen, hmoved, Option.map_some, pipeStage_flightAt]

theorem pipeOutput_pipeRun (hv : HashWords) (blk : Block) (behind : List (Option Flight))
    (regs : Vector (Option Flight) 64) (hlen : behind.length = 63) :
    pipeOutput (pipeRun (some (flightOf hv blk) :: behind) regs) = some (compress hv blk) := by
  have hlast := getElem_pipeRun hv blk behind regs (by omega)
  simp only [hlen] at hlast
  rw [pipeOutput, hlast, Option.map_some, flightAt, compress]

theorem pipelined_eq_compress (hv : HashWords) (blk : Block) : pipelined hv blk = some (compress hv blk) :=
  pipeOutput_pipeRun hv blk _ _ List.length_replicate

/-- Settles O32: 64 clocks on, the input is in the last stage register after 64 rounds. -/
theorem pipelinedDatapathIsCompress : Obligations.PipelinedDatapathIsCompress := by
  unfold Obligations.PipelinedDatapathIsCompress
  exact ⟨pipeOutput_pipeRun, pipelined_eq_compress⟩

/-! ### The block's own datapath (R7, R114) -/

theorem mem_iterativeWidths_of_wf {p : Params} {k : Nat} (hp : p.datapath = .iterative k) (hwf : p.wf = true) :
    k ∈ iterativeWidths := by
  rw [Params.wf, hp, Bool.and_eq_true, List.contains_iff_mem] at hwf
  exact hwf.1

/-- Settles O55, one structure after the other. -/
theorem everyLegalDatapathIsCompress : Obligations.EveryLegalDatapathIsCompress := by
  unfold Obligations.EveryLegalDatapathIsCompress
  intro p hv blk hwf
  cases hdp : p.datapath with
  | unrolled => exact congrArg some (unrolledDatapathIsCompress hv blk)
  | pipelined => exact pipelined_eq_compress hv blk
  | iterative k => exact congrArg some (iterative_eq_compress hv blk (mem_iterativeWidths_of_wf hdp hwf))

end Sys2Proof.Machine

/-! PROOF. UPD1 to UPD8 (41_hash_commands.md R142 to R150). Absorbing bytes is said once in closed form: with room left
they are stored behind FILL (`absorbAll_of_room`), else the first of them complete the block and the rest are absorbed
into the next one (`absorbAll_of_full`). -/

namespace Sys2Proof.Machine

open Sys2Proof.Claims

/-! ### Absorbing a byte string -/

theorem getElem_streamBlock (s : State) (bytes : List Byte) {j : Nat} (hj : j < 64) :
    (streamBlock s bytes)[j] = if j < s.fill.val then s.buf[j] else bytes.getD (j - s.fill.val) 0 := by
  rw [streamBlock, Vector.getElem_ofFn]
  rfl

/-- BUF with the bytes stored from FILL on. -/
def storedBuf (s : State) (bytes : List Byte) : Block :=
  Vector.ofFn fun j => if j.val < s.fill.val + bytes.length then (streamBlock s bytes)[j] else s.buf[j]

theorem getElem_storedBuf (s : State) (bytes : List Byte) {j : Nat} (hj : j < 64) :
    (storedBuf s bytes)[j] = if j < s.fill.val + bytes.length then (streamBlock s bytes)[j] else s.buf[j] := by
  rw [storedBuf, Vector.getElem_ofFn]
  rfl

/-- The stored bytes, as UPDn is specified (R142). -/
theorem getElem_storedBuf_eq (s : State) (bytes : List Byte) {j : Nat} (hj : j < 64) :
    (storedBuf s bytes)[j] =
      if s.fill.val ≤ j ∧ j < s.fill.val + bytes.length then bytes.getD (j - s.fill.val) 0 else s.buf[j] := by
  rw [getElem_storedBuf s bytes hj, getElem_streamBlock s bytes hj]
  rcases Nat.lt_or_ge j s.fill.val with hlt | hge
  · rw [if_pos (by omega), if_pos hlt, if_neg (by omega)]
  · rw [if_neg hge.not_gt]
    exact if_congr (by omega) rfl rfl

/-- The state after a byte that leaves the block incomplete. -/
def State.push (s : State) (v : Byte) (h : s.fill.val + 1 < 64) : State :=
  { s with buf := s.buf.set s.fill.val v, fill := ⟨s.fill.val + 1, h⟩ }

theorem absorb_eq_push {v : Byte} {s : State} (h : s.fill.val + 1 < 64) : absorb v s = s.push v h :=
  absorb_of_lt v s h

section
variable {s : State} {v : Byte} (hroom : s.fill.val + 1 < 64)

theorem push_fill_val : (s.push v hroom).fill.val = s.fill.val + 1 := rfl

theorem getElem_push_buf {j : Nat} (hj : j < 64) :
    (s.push v hroom).buf[j] = if s.fill.val = j then v else s.buf[j] := by
  simp only [State.push, Vector.getElem_set]

theorem streamBlock_push (rest : List Byte) : streamBlock (s.push v hroom) rest = streamBlock s (v :: rest) := by
  refine Vector.ext fun j hj => ?_
  rw [getElem_streamBlock _ _ hj, getElem_streamBlock _ _ hj, getElem_push_buf hroom hj, push_fill_val]
  rcases Nat.lt_trichotomy s.fill.val j with hlt | heq | hgt
  · have hpos : j - s.fill.val = j - (s.fill.val + 1) + 1 := by omega
    rw [if_neg (by omega), if_neg (by omega), hpos, List.getD_cons_succ]
  · rw [if_pos (by omega), if_pos heq, if_neg (by omega), ← heq, Nat.sub_self, List.getD_cons_zero]
  · rw [if_pos (by omega), if_neg (by omega), if_pos hgt]

theorem storedBuf_push (rest : List Byte) : storedBuf (s.push v hroom) rest = storedBuf s (v :: rest) := by
  refine Vector.ext fun j hj => ?_
  rw [getElem_storedBuf _ _ hj, getElem_storedBuf _ _ hj, streamBlock_push, push_fill_val, List.length_cons,
    Nat.add_right_comm, Nat.add_assoc]
  refine ite_congr rfl (fun _ => rfl) fun hge => ?_
  rw [getElem_push_buf hroom hj, if_neg (by omega)]

end

/-- Bytes that leave the block incomplete are stored behind FILL (R142). -/
theorem absorbAll_of_room (bytes : List Byte) (s : State) (h : s.fill.val + bytes.length < 64) :
    absorbAll bytes s = { s with buf := storedBuf s bytes, fill := ⟨s.fill.val + bytes.length, h⟩ } := by
  induction bytes generalizing s with
  | nil =>
    have hbuf : storedBuf s [] = s.buf := by
      refine Vector.ext fun j hj => ?_
      rw [getElem_storedBuf_eq s [] hj, List.length_nil, if_neg (by omega)]
    rw [absorbAll_nil, hbuf]
    rfl
  | cons v rest ih =>
    rw [List.length_cons] at h
    have hroom : s.fill.val + 1 < 64 := by omega
    have hfill : (s.push v hroom).fill.val + rest.length = s.fill.val + (rest.length + 1) := by
      rw [push_fill_val]
      omega
    rw [absorbAll_cons, absorb_eq_push hroom, ih _ (by omega), storedBuf_push]
    simp only [hfill, List.length_cons]
    rfl

/-- The state between two blocks: the completed block is compressed, and the next one is empty (R142). -/
def State.nextBlock (s : State) (blk : Block) : State :=
  forgetBuffer { s with h := compress s.h blk, bitcnt := s.bitcnt + 512#64, fill := 0 }

theorem nextBlock_fill_val (s : State) (blk : Block) : (s.nextBlock blk).fill.val = 0 := rfl

theorem streamBlock_of_last (s : State) (v : Byte) (rest : List Byte) (hlast : ¬ s.fill.val + 1 < 64) :
    streamBlock s (v :: rest) = s.buf.set s.fill.val v := by
  refine Vector.ext fun j hj => ?_
  rw [getElem_streamBlock _ _ hj, Vector.getElem_set]
  rcases (show j ≤ s.fill.val by omega).lt_or_eq with hlt | rfl
  · rw [if_pos hlt, if_neg hlt.ne']
  · rw [if_neg (Nat.lt_irrefl _), if_pos rfl, Nat.sub_self, List.getD_cons_zero]

/-- Bytes that reach the boundary complete the block, and those behind the boundary start the next (R142). -/
theorem absorbAll_of_full (bytes : List Byte) (s : State) (h : 64 ≤ s.fill.val + bytes.length) :
    absorbAll bytes s = absorbAll (bytes.drop (64 - s.fill.val)) (s.nextBlock (streamBlock s bytes)) := by
  induction bytes generalizing s with
  | nil =>
    have := s.fill.isLt
    rw [List.length_nil] at h
    omega
  | cons v rest ih =>
    rw [List.length_cons] at h
    by_cases hroom : s.fill.val + 1 < 64
    · have hdrop : 64 - s.fill.val = 64 - (s.fill.val + 1) + 1 := by omega
      rw [absorbAll_cons, absorb_eq_push hroom, ih _ (by rw [push_fill_val]; omega), streamBlock_push, hdrop,
        List.drop_succ_cons]
      rfl
    · have hdrop : 64 - s.fill.val = 0 + 1 := by omega
      rw [absorbAll_cons, absorb_of_full v s hroom, streamBlock_of_last s v rest hroom, hdrop,
        List.drop_succ_cons, List.drop_zero]
      rfl

/-- The block a command of at most 64 bytes leaves behind when it completes one. -/
theorem absorbAll_of_full_of_le (bytes : List Byte) (s : State) (h : 64 ≤ s.fill.val + bytes.length)
    (hlen : bytes.length ≤ 64) :
    ∃ fill, fill.val = s.fill.val + bytes.length - 64 ∧ absorbAll bytes s =
      { s.nextBlock (streamBlock s bytes) with
        buf := storedBuf (s.nextBlock (streamBlock s bytes)) (bytes.drop (64 - s.fill.val)), fill := fill } := by
  have := s.fill.isLt
  have hzero := nextBlock_fill_val s (streamBlock s bytes)
  have hrest : (bytes.drop (64 - s.fill.val)).length = s.fill.val + bytes.length - 64 := by
    rw [List.length_drop]
    omega
  refine ⟨_, ?_, (absorbAll_of_full bytes s h).trans (absorbAll_of_room _ _ (by omega))⟩
  exact (congrArg₂ (· + ·) hzero hrest).trans (Nat.zero_add _)

/-! ### Each UPDn (R143 to R150) -/

theorem absorbsExactly_of_exec {i : Instr} {bytes : List Byte} (hall : ∀ u, exec i u = .next (absorbAll bytes u))
    (hlen : bytes.length ≤ 64) : AbsorbsExactly i bytes := by
  intro s
  obtain ⟨hparams, herr, hcause, hwin, hns, hsum, hout, hinbox⟩ := absorbAll_frame bytes s
  refine ⟨_, hall s, fun hroom => ?_, fun hfull => ?_, hout, ⟨herr, hcause⟩, ⟨hwin, hns, hsum⟩,
    ⟨hparams, hinbox⟩⟩
  · rw [absorbAll_of_room bytes s hroom]
    exact ⟨rfl, rfl, rfl, fun j => getElem_storedBuf_eq s bytes j.isLt⟩
  · obtain ⟨fill, hfill, heq⟩ := absorbAll_of_full_of_le bytes s hfull hlen
    rw [heq]
    refine ⟨rfl, rfl, hfill, fun j hj => ?_⟩
    have hin : j.val < 0 + (bytes.drop (64 - s.fill.val)).length := by
      rw [List.length_drop]
      simp only [hfill] at hj
      omega
    refine (getElem_storedBuf_eq _ _ j.isLt).trans ?_
    rw [nextBlock_fill_val, if_pos ⟨Nat.zero_le _, hin⟩, Nat.sub_zero]
    simp [List.getD_eq_getElem?_getD]

/-- Settles O15: `updBytes` lists the bytes the statement writes out. -/
theorem updAbsorbsItsBytes : Obligations.UpdAbsorbsItsBytes := by
  unfold Obligations.UpdAbsorbsItsBytes
  refine ⟨fun d => ?_, fun d => ?_, fun d => ?_, fun d => ?_, fun d => ?_, fun d => ?_, fun d => ?_, fun d => ?_⟩
  all_goals exact absorbsExactly_of_exec (fun _ => rfl) (by simp)

/-! ### Who writes H (R21) -/

/-- The bytes of a command that is no SMPL tell its opcode. -/
theorem opcode_of_messageBytes {i : Instr} (hne : messageBytes i ≠ []) :
    (messageBytes i).length ≤ 8 ∧ i.opcode = BitVec.ofNat 8 (0x0F + (messageBytes i).length) := by
  cases i
  case nop | reset | digest | smpl => exact absurd rfl hne
  all_goals simp [messageBytes, Instr.opcode]

theorem CommandEffect.h_cases {s t : State} {i : Instr} (heff : CommandEffect s i t) (hne : t.h ≠ s.h) :
    i.opcode = 0x01#8 ∨ i.opcode = 0x02#8 ∨
      ∃ n, 1 ≤ n ∧ n ≤ 8 ∧ i.opcode = BitVec.ofNat 8 (0x0F + n) ∧ 64 ≤ s.fill.val + n := by
  cases heff with
  | reset => exact .inl rfl
  | digest => exact .inr (.inl rfl)
  | absorb hall =>
    have hfull : 64 ≤ s.fill.val + (messageBytes i).length := by
      by_contra hroom
      exact hne (by rw [absorbAll_of_room _ s (Nat.lt_of_not_le hroom)])
    have hpos : 1 ≤ (messageBytes i).length := by omega
    obtain ⟨hle, hop⟩ := opcode_of_messageBytes (List.ne_nil_of_length_pos hpos)
    exact .inr (.inr ⟨_, hpos, hle, hop, hfull⟩)
  | sample data hp hns =>
    obtain ⟨-, hh, -⟩ := takeSample_frame (sint64 data) s
    exact absurd hh hne
  | overflow data hp hns => exact absurd (raiseError_h _ s) hne
  | noHarvester data ha => exact absurd (raiseError_h _ s) hne

/-- Settles O22: with room left the closed form of absorbing keeps H, and OP is the opcode of the command. -/
theorem onlyTheHashCommandsWriteH : Obligations.OnlyTheHashCommandsWriteH := by
  unfold Obligations.OnlyTheHashCommandsWriteH
  intro w s t hword hne
  rcases performWord_effect hword with ⟨i, hdec, heff⟩ | rfl
  · rw [opField_of_decode hdec]
    exact heff.h_cases hne
  · exact absurd (raiseError_h _ s) hne

end Sys2Proof.Machine

/-! PROOF. The message the hash context stands for (10_state.md R22 to R25, 41_hash_commands.md R142, R151, R155). A byte
absorbed is a byte appended to the message, and the blocks FINAL compresses are those of the padded message. -/

namespace Sys2Proof.Machine

open Sys2Proof.Claims

/-! ### Blocks of a longer byte string -/

/-- A full block of a byte string stays what it is when bytes are appended. -/
theorem blockAt_append_of_lt {msg : List Byte} (rest : List Byte) {i : Nat} (hi : i < msg.length / 64) :
    blockAt (msg ++ rest) i = blockAt msg i := by
  refine Vector.ext fun j hj => ?_
  rw [getElem_blockAt, getElem_blockAt, List.getD_append _ _ _ _ (by omega)]

/-- Appended bytes add `k` blocks behind the full ones. -/
theorem blocksOf_append {msg rest : List Byte} {k : Nat}
    (hk : (msg ++ rest).length / 64 = msg.length / 64 + k) :
    blocksOf (msg ++ rest) =
      blocksOf msg ++ (List.range k).map fun i => blockAt (msg ++ rest) (msg.length / 64 + i) := by
  rw [blocksOf, blocksOf, hk, List.range_add, List.map_append, List.map_map]
  have hfull : (List.range (msg.length / 64)).map (blockAt (msg ++ rest)) =
      (List.range (msg.length / 64)).map (blockAt msg) :=
    List.map_congr_left fun i hi => blockAt_append_of_lt rest (List.mem_range.1 hi)
  rw [hfull]
  rfl

theorem chain_append (xs ys : List Block) : chain (xs ++ ys) = ys.foldl compress (chain xs) := List.foldl_append

/-! ### The context along the commands (R22 to R25, R142) -/

theorem holds_nil_of_atCtx0 {s : State} (h : s.atCtx0) : s.Holds [] := by
  obtain ⟨hh, hfill, hbit⟩ := h
  refine ⟨hh, by rw [hfill]; rfl, fun j hj => ?_, hbit⟩
  rw [hfill] at hj
  exact absurd hj (Nat.not_lt_zero _)

theorem State.Holds.of_sameContext {s t : State} {msg : List Byte} (h : s.Holds msg) (hc : t.sameContext s) :
    t.Holds msg := by
  obtain ⟨hh, hbuf, hfill, hbit⟩ := hc
  exact ⟨hh ▸ h.chained, hfill ▸ h.filled, by rw [hbuf, hfill]; exact h.buffered, hbit ▸ h.counted⟩

/-- FILL and the full blocks add up to the length of the message. -/
theorem State.Holds.length_eq {s : State} {msg : List Byte} (h : s.Holds msg) :
    msg.length = 64 * (msg.length / 64) + s.fill.val := by
  rw [h.filled]
  exact (Nat.div_add_mod _ _).symm

/-- The message behind the full blocks: the bytes of BUF, then what follows. -/
theorem State.Holds.getD_append {s : State} {msg : List Byte} (h : s.Holds msg) (rest : List Byte) (j : Fin 64) :
    (msg ++ rest).getD (64 * (msg.length / 64) + j.val) 0 =
      if j.val < s.fill.val then s.buf[j] else rest.getD (j.val - s.fill.val) 0 := by
  have hlen := h.length_eq
  split
  · next hlt => rw [List.getD_append _ _ _ _ (by omega), ← h.buffered j hlt]; rfl
  · next hge =>
    have hpos : 64 * (msg.length / 64) + j.val - msg.length = j.val - s.fill.val := by omega
    rw [List.getD_append_right _ _ _ _ (by omega), hpos]

theorem State.Holds.push {s : State} {msg : List Byte} (h : s.Holds msg) (v : Byte)
    (hroom : s.fill.val + 1 < 64) : (s.push v hroom).Holds (msg ++ [v]) := by
  have hlen := h.length_eq
  have hquot : (msg ++ [v]).length / 64 = msg.length / 64 + 0 := by
    rw [List.length_append, List.length_singleton]
    omega
  constructor
  · rw [blocksOf_append hquot, List.range_zero, List.map_nil, List.append_nil]
    exact h.chained
  · rw [List.length_append, List.length_singleton, push_fill_val]
    omega
  · intro j hj
    have hle : j.val ≤ s.fill.val := Nat.le_of_lt_succ hj
    rw [hquot, Nat.add_zero, h.getD_append [v] j, getElem_push_buf hroom j.isLt]
    rcases hle.lt_or_eq with hlt | heq
    · rw [if_neg hlt.ne', if_pos hlt]
      rfl
    · rw [if_pos heq.symm, if_neg heq.not_lt, heq, Nat.sub_self, List.getD_cons_zero]
  · rw [hquot, Nat.add_zero]
    exact h.counted

theorem State.Holds.nextBlock {s : State} {msg : List Byte} (h : s.Holds msg) (v : Byte)
    (hlast : ¬ s.fill.val + 1 < 64) : (s.nextBlock (s.buf.set s.fill.val v)).Holds (msg ++ [v]) := by
  have hlen := h.length_eq
  have hquot : (msg ++ [v]).length / 64 = msg.length / 64 + 1 := by
    rw [List.length_append, List.length_singleton]
    omega
  have hblock : s.buf.set s.fill.val v = blockAt (msg ++ [v]) (msg.length / 64) := by
    refine Vector.ext fun j hj => ?_
    rw [← streamBlock_of_last s v [] hlast, getElem_streamBlock _ _ hj, getElem_blockAt]
    exact (h.getD_append [v] ⟨j, hj⟩).symm
  constructor
  · rw [hblock, blocksOf_append hquot, chain_append, ← h.chained]
    rfl
  · rw [List.length_append, List.length_singleton, nextBlock_fill_val]
    omega
  · exact fun j hj => absurd hj (Nat.not_lt_zero _)
  · rw [hquot, Nat.mul_add, BitVec.ofNat_add, ← h.counted]
    rfl

/-- A byte absorbed is a byte of the message (R142). -/
theorem State.Holds.absorb {s : State} {msg : List Byte} (h : s.Holds msg) (v : Byte) :
    (absorb v s).Holds (msg ++ [v]) := by
  by_cases hroom : s.fill.val + 1 < 64
  · rw [absorb_eq_push hroom]
    exact h.push v hroom
  · rw [absorb_of_full v s hroom]
    exact h.nextBlock v hroom

theorem State.Holds.absorbAll {s : State} {msg : List Byte} (h : s.Holds msg) (bytes : List Byte) :
    (absorbAll bytes s).Holds (msg ++ bytes) := by
  induction bytes generalizing s msg with
  | nil => simpa using h
  | cons v rest ih => simpa using ih (h.absorb v)

theorem CommandEffect.holds {s t : State} {i : Instr} {msg : List Byte} (heff : CommandEffect s i t)
    (hkeeps : keepsMessage i = true) (h : s.Holds msg) : t.Holds (msg ++ messageBytes i) := by
  cases heff with
  | reset => cases hkeeps
  | digest => cases hkeeps
  | absorb hall => exact h.absorbAll _
  | sample data hp hns =>
    obtain ⟨-, hh, hbuf, hfill, hbit, -⟩ := takeSample_frame (sint64 data) s
    rw [messageBytes, List.append_nil]
    exact h.of_sameContext ⟨hh, hbuf, hfill, hbit⟩
  | overflow data hp hns | noHarvester data ha =>
    rw [messageBytes, List.append_nil]
    exact h.of_sameContext ⟨raiseError_h _ s, raiseError_buf _ s, raiseError_fill _ s, raiseError_bitcnt _ s⟩

/-- Settles O18: an UPDn absorbs its bytes, and NOP and SMPL supply none and keep the context. -/
theorem commandsExtendTheMessage : Obligations.CommandsExtendTheMessage := by
  unfold Obligations.CommandsExtendTheMessage
  refine ⟨fun s h => holds_nil_of_atCtx0 h, fun i s msg hkeeps h => ?_⟩
  obtain ⟨t, hexec⟩ := exec_next i s
  exact ⟨t, hexec, (exec_effect hexec).holds hkeeps h⟩

/-! ### Padding (R151, R155) -/

/-- What PAD appends to a message of `n` bytes (R155). -/
def padding (n : Nat) : List Byte :=
  0x80#8 :: (List.replicate (padZeros n) 0x00#8 ++ be64bytes (BitVec.ofNat 64 (8 * n)))

theorem padMessage_eq (msg : List Byte) : padMessage msg = msg ++ padding msg.length := by
  rw [padMessage, padding, List.append_assoc, List.append_assoc]
  rfl

theorem padding_length (n : Nat) : (padding n).length = padZeros n + 9 := by
  simp [padding]

theorem getD_be64bytes (v : Word64) {m : Nat} (hm : m < 8) :
    (be64bytes v).getD m 0 = v.extractLsb' (56 - 8 * m) 8 := by
  simp [be64bytes, hm]

/-- PAD byte by byte: 0x80, the zeros, and the length in its last eight bytes. -/
theorem getD_padding (n : Nat) {i : Nat} (hi : i < padZeros n + 9) :
    (padding n).getD i 0 =
      if i = 0 then 0x80#8 else if i ≤ padZeros n then 0x00#8
      else (BitVec.ofNat 64 (8 * n)).extractLsb' (8 * (padZeros n + 8 - i)) 8 := by
  rw [padding]
  cases i with
  | zero => rfl
  | succ i =>
    rw [if_neg (Nat.succ_ne_zero i), List.getD_cons_succ]
    split
    · next hlt =>
      rw [List.getD_append _ _ _ _ (by rwa [List.length_replicate])]
      exact List.getD_replicate _ hlt
    · next hge =>
      have hpos : 56 - 8 * (i - padZeros n) = 8 * (padZeros n + 8 - (i + 1)) := by omega
      rw [List.getD_append_right _ _ _ _ (by rw [List.length_replicate]; omega), List.length_replicate,
        getD_be64bytes _ (by omega), hpos]

/-- `(BITCNT + 8 · FILL) mod 2^64` is the length of the message in bits (R24). -/
theorem State.Holds.messageBits_eq {s : State} {msg : List Byte} (h : s.Holds msg) :
    messageBits s = BitVec.ofNat 64 (8 * msg.length) := by
  have hbits : 8 * msg.length = 512 * (msg.length / 64) + 8 * s.fill.val := by
    have := h.length_eq
    omega
  rw [messageBits, h.counted, ← BitVec.ofNat_add, ← hbits]

theorem getElem_onePadBlock (s : State) (len : Word64) {j : Nat} (hj : j < 64) :
    (onePadBlock s len)[j] =
      if j < s.fill.val then s.buf[j] else if j = s.fill.val then 0x80#8
      else if j < 56 then 0x00#8 else len.extractLsb' (8 * (63 - j)) 8 := by
  rw [onePadBlock, Vector.getElem_ofFn]
  rfl

theorem getElem_extraPadBlock (s : State) {j : Nat} (hj : j < 64) :
    (extraPadBlock s)[j] =
      if j < s.fill.val then s.buf[j] else if j = s.fill.val then 0x80#8 else 0x00#8 := by
  rw [extraPadBlock, Vector.getElem_ofFn]
  rfl

theorem getElem_lengthBlock (len : Word64) {j : Nat} (hj : j < 64) :
    (lengthBlock len)[j] = if j < 56 then 0x00#8 else len.extractLsb' (8 * (63 - j)) 8 := by
  rw [lengthBlock, Vector.getElem_ofFn]
  rfl

section
variable {s : State} {msg : List Byte} (h : s.Holds msg)
include h

/-- Byte `j` of the block the message ends in, padding included. -/
theorem State.Holds.getElem_blockAt_padMessage {j : Nat} (hj : j < 64) :
    (blockAt (padMessage msg) (msg.length / 64))[j] =
      if j < s.fill.val then s.buf[j] else (padding msg.length).getD (j - s.fill.val) 0 := by
  rw [getElem_blockAt, padMessage_eq]
  exact h.getD_append _ ⟨j, hj⟩

theorem State.Holds.blockAt_padMessage_of_fits (hfit : s.fill.val < 56) :
    blockAt (padMessage msg) (msg.length / 64) = onePadBlock s (messageBits s) := by
  have hzeros : padZeros msg.length = 55 - s.fill.val := by
    have := h.length_eq
    unfold padZeros
    omega
  refine Vector.ext fun j hj => ?_
  rw [h.getElem_blockAt_padMessage hj, getElem_onePadBlock _ _ hj]
  refine ite_congr rfl (fun _ => rfl) fun hge => ?_
  have hpos : 8 * (55 - s.fill.val + 8 - (j - s.fill.val)) = 8 * (63 - j) := by omega
  rw [getD_padding _ (by omega), hzeros, hpos, h.messageBits_eq]
  exact if_congr (by omega) rfl (if_congr (by omega) rfl rfl)

theorem State.Holds.blockAt_padMessage_of_overflows (hfull : ¬ s.fill.val < 56) :
    blockAt (padMessage msg) (msg.length / 64) = extraPadBlock s := by
  have hzeros : padZeros msg.length = 119 - s.fill.val := by
    have := h.length_eq
    unfold padZeros
    omega
  refine Vector.ext fun j hj => ?_
  rw [h.getElem_blockAt_padMessage hj, getElem_extraPadBlock _ hj]
  refine ite_congr rfl (fun _ => rfl) fun hge => ?_
  rw [getD_padding _ (by omega), hzeros, if_pos (show j - s.fill.val ≤ 119 - s.fill.val by omega)]
  exact if_congr (by omega) rfl rfl

/-- The block behind the extra one: what is left of the zeros, and the length. -/
theorem State.Holds.blockAt_padMessage_succ (hfull : ¬ s.fill.val < 56) :
    blockAt (padMessage msg) (msg.length / 64 + 1) = lengthBlock (messageBits s) := by
  have hlen := h.length_eq
  have hzeros : padZeros msg.length = 119 - s.fill.val := by
    unfold padZeros
    omega
  refine Vector.ext fun j hj => ?_
  have hbehind : 64 * (msg.length / 64 + 1) + j - msg.length = 64 + j - s.fill.val := by omega
  have hpos : 8 * (119 - s.fill.val + 8 - (64 + j - s.fill.val)) = 8 * (63 - j) := by omega
  rw [getElem_blockAt, padMessage_eq, List.getD_append_right _ _ _ _ (by omega), hbehind,
    getD_padding _ (by omega), hzeros, if_neg (by omega), hpos, getElem_lengthBlock _ hj, h.messageBits_eq]
  exact if_congr (by omega) rfl rfl

/-- FINAL compresses the blocks of the padded message that the context has not compressed yet (R151, R155). -/
theorem State.Holds.finalHash_eq : finalHash s = chain (blocksOf (padMessage msg)) := by
  have hlen := h.length_eq
  have hpad := padding_length msg.length
  by_cases hfit : s.fill.val < 56
  · have hblocks : (msg ++ padding msg.length).length / 64 = msg.length / 64 + 1 := by
      rw [List.length_append, hpad]
      unfold padZeros
      omega
    rw [finalHash_of_fits s hfit, ← h.blockAt_padMessage_of_fits hfit, h.chained, padMessage_eq,
      blocksOf_append hblocks, chain_append]
    rfl
  · have hblocks : (msg ++ padding msg.length).length / 64 = msg.length / 64 + 2 := by
      rw [List.length_append, hpad]
      unfold padZeros
      omega
    rw [finalHash_of_overflows s hfit, ← h.blockAt_padMessage_of_overflows hfit,
      ← h.blockAt_padMessage_succ hfit, h.chained, padMessage_eq, blocksOf_append hblocks, chain_append]
    rfl

theorem State.Holds.digestValue_eq : digestValue (finalHash s) = sha256 msg := by
  rw [h.finalHash_eq, sha256]

/-- DIGEST emits SHA256 of the message the context stands for (R152, R155). -/
theorem State.Holds.exec_digest : exec .digest s = .next (resetContext (emit .host (sha256 msg) s)) := by
  rw [Machine.exec_digest, h.digestValue_eq]

end

/-- The digest of the empty message (R156). -/
theorem sha256_nil :
    sha256 [] = 0xe3b0c44298fc1c149afbf4c8996fb92427ae41e4649b934ca495991b7852b855#256 := by decide +kernel

/-- Settles O17: the first DIGEST leaves `CTX0`, which stands for the empty message. -/
theorem secondDigestIsOfTheEmptyMessage : Obligations.SecondDigestIsOfTheEmptyMessage := by
  unfold Obligations.SecondDigestIsOfTheEmptyMessage
  intro s
  have hholds := holds_nil_of_atCtx0 (resetContext_atCtx0 (emit .host (digestValue (finalHash s)) s))
  refine ⟨_, _, exec_digest s, hholds.exec_digest, ?_⟩
  rw [resetContext_out, emit_out, sha256_nil]

/-! ### Sequences of commands (R155) -/

theorem runAll_cons {α : Type} {perform : α → State → Host.Outcome State Fault Refusal} {x : α} {s t : State}
    (rest : List α) (h : perform x s = .next t) : runAll perform (x :: rest) s = runAll perform rest t := by
  rw [runAll, h]

theorem runAll_singleton {α : Type} {perform : α → State → Host.Outcome State Fault Refusal} {x : α} {s t : State}
    (h : perform x s = .next t) : runAll perform [x] s = .next t :=
  runAll_cons [] h

theorem runAll_append {α : Type} {perform : α → State → Host.Outcome State Fault Refusal} {xs : List α}
    {s t : State} (ys : List α) (h : runAll perform xs s = .next t) :
    runAll perform (xs ++ ys) s = runAll perform ys t := by
  induction xs generalizing s with
  | nil =>
    cases h
    rfl
  | cons x rest ih =>
    rw [runAll] at h
    cases hx : perform x s with
    | next u =>
      rw [hx] at h
      rw [List.cons_append, runAll_cons _ hx, ih h]
    | fault r => cases r
    | refused r =>
      rw [hx] at h
      cases h

theorem filter_isHost_harv (d : DigestWord) : [{ src := .harv, data := d : Record }].filter isHost = [] := rfl

theorem opcode_ne_digest_of_keepsMessage {i : Instr} (hkeeps : keepsMessage i = true) : i.opcode ≠ 0x02#8 := by
  cases i
  case digest => cases hkeeps
  all_goals simp [Instr.opcode]

theorem opcode_ne_smpl_of_isHashCommand {i : Instr} (hhash : isHashCommand i = true) : i.opcode ≠ 0x20#8 := by
  cases i
  case smpl => cases hhash
  all_goals simp [Instr.opcode]

/-- A command that keeps the message makes no HOST record, and no record at all unless it is SMPL. -/
theorem CommandEffect.out_of_keepsMessage {s t : State} {i : Instr} (heff : CommandEffect s i t)
    (hkeeps : keepsMessage i = true) :
    t.out.filter isHost = s.out.filter isHost ∧ (isHashCommand i = true → t.out = s.out) := by
  rcases heff.out with hout | ⟨d, hop, -⟩ | ⟨d, hop, hout⟩
  · exact ⟨by rw [hout], fun _ => hout⟩
  · exact absurd hop (opcode_ne_digest_of_keepsMessage hkeeps)
  · refine ⟨by rw [hout, List.filter_append, filter_isHost_harv, List.append_nil], fun hhash => ?_⟩
    exact absurd hop (opcode_ne_smpl_of_isHashCommand hhash)

theorem runInstrs_holds {cs : List Instr} {s : State} {msg : List Byte} (h : s.Holds msg)
    (hkeeps : ∀ c ∈ cs, keepsMessage c = true) :
    ∃ t, runInstrs cs s = .next t ∧ t.Holds (msg ++ cs.flatMap messageBytes) ∧
      t.out.filter isHost = s.out.filter isHost ∧
      ((∀ c ∈ cs, isHashCommand c = true) → t.out = s.out) := by
  induction cs generalizing s msg with
  | nil => exact ⟨s, rfl, by simpa using h, rfl, fun _ => rfl⟩
  | cons c rest ih =>
    obtain ⟨hc, hrest⟩ := List.forall_mem_cons.1 hkeeps
    obtain ⟨u, hexec⟩ := exec_next c s
    have heff := exec_effect hexec
    obtain ⟨hhost, hnone⟩ := heff.out_of_keepsMessage hc
    obtain ⟨t, hrun, hholds, hhost', hnone'⟩ := ih (heff.holds hc h) hrest
    refine ⟨t, (runAll_cons rest hexec).trans hrun, ?_, hhost'.trans hhost, fun hhash => ?_⟩
    · rwa [List.flatMap_cons, ← List.append_assoc]
    · obtain ⟨hhashc, hhashrest⟩ := List.forall_mem_cons.1 hhash
      exact (hnone' hhashrest).trans (hnone hhashc)

/-- Settles O19: the commands leave a context that stands for the bytes supplied, and DIGEST emits its SHA256. -/
theorem digestOfAnySplitIsSha256 : Obligations.DigestOfAnySplitIsSha256 := by
  unfold Obligations.DigestOfAnySplitIsSha256
  intro cs s hctx hkeeps
  obtain ⟨t, hrun, hholds, hhost, hnone⟩ := runInstrs_holds (holds_nil_of_atCtx0 hctx) hkeeps
  rw [List.nil_append] at hholds
  refine ⟨_, (runAll_append [Instr.digest] hrun).trans (runAll_singleton hholds.exec_digest),
    resetContext_atCtx0 _, ?_, fun hhash => ?_⟩
  · rw [resetContext_out, emit_out, List.filter_append, hhost]
    rfl
  · rw [resetContext_out, emit_out, hnone hhash]

end Sys2Proof.Machine

/-! PROOF. The assembler (30_encoding.md R73, R79, R80). An UPDn's immediate is the big-endian value of its bytes, in both
directions; so `UPD<n>` is the word of a command whose bytes have the immediate as value, and the words of UPDATE absorb
the listed bytes. -/

namespace Sys2Proof.Machine

open Sys2Proof.Claims

/-! ### Operand bytes and big-endian values (R73) -/

theorem bigEndian_concat (bytes : List Byte) (b : Byte) :
    bigEndian (bytes ++ [b]) = 256 * bigEndian bytes + b.toNat := by
  rw [bigEndian, List.foldl_concat, ← bigEndian]

/-- The last byte is DATA[7:0], and those before it are the bytes of DATA shifted down by one. -/
theorem updBytes_succ {w : Nat} (n : Nat) (imm : BitVec w) :
    updBytes (n + 1) imm = updBytes n (imm >>> 8) ++ [imm.extractLsb' 0 8] := by
  have hlast : 8 * (n + 1 - n - 1) = 0 := by omega
  rw [updBytes, updBytes, List.range_succ, List.map_append, List.map_singleton, hlast]
  refine congrArg (· ++ _) (List.map_congr_left fun k hk => ?_)
  have hpos : 8 * (n + 1 - k - 1) = 8 + 8 * (n - k - 1) := by
    have := List.mem_range.1 hk
    omega
  ext j hj
  rw [BitVec.getElem_extractLsb', BitVec.getElem_extractLsb', BitVec.getLsbD_ushiftRight, hpos, Nat.add_assoc]

theorem bigEndian_updBytes {w : Nat} (n : Nat) (imm : BitVec w) :
    bigEndian (updBytes n imm) = imm.toNat % 2 ^ (8 * n) := by
  induction n generalizing imm with
  | zero => simp [updBytes, bigEndian, Nat.mod_one]
  | succ n ih =>
    have hpow : 2 ^ (8 * (n + 1)) = 2 ^ 8 * 2 ^ (8 * n) := by rw [Nat.mul_succ, Nat.pow_add, Nat.mul_comm]
    rw [updBytes_succ, bigEndian_concat, ih, BitVec.toNat_ushiftRight, BitVec.extractLsb'_toNat, hpow,
      Nat.shiftRight_zero, Nat.shiftRight_eq_div_pow, Nat.mod_mul]
    omega

theorem bigEndian_lt (bytes : List Byte) : bigEndian bytes < 2 ^ (8 * bytes.length) := by
  induction bytes using List.reverseRecOn with
  | nil => decide
  | append_singleton bytes b ih =>
    have := b.isLt
    rw [bigEndian_concat, List.length_append, List.length_singleton, Nat.mul_succ, Nat.pow_add]
    omega

/-- The big-endian value of a byte string, as an operand wide enough, supplies these bytes. -/
theorem updBytes_bigEndian {w : Nat} (bytes : List Byte) (hw : 8 * bytes.length ≤ w) :
    updBytes bytes.length (BitVec.ofNat w (bigEndian bytes)) = bytes := by
  induction bytes using List.reverseRecOn with
  | nil => rfl
  | append_singleton bytes b ih =>
    have hlt : bigEndian (bytes ++ [b]) < 2 ^ w :=
      (bigEndian_lt _).trans_le (Nat.pow_le_pow_right (by decide) hw)
    rw [List.length_append, List.length_singleton] at hw
    have hb := b.isLt
    have hshift : BitVec.ofNat w (bigEndian (bytes ++ [b])) >>> 8 = BitVec.ofNat w (bigEndian bytes) := by
      apply BitVec.eq_of_toNat_eq
      rw [BitVec.toNat_ushiftRight, BitVec.toNat_ofNat, BitVec.toNat_ofNat, Nat.mod_eq_of_lt hlt,
        Nat.shiftRight_eq_div_pow]
      rw [bigEndian_concat] at hlt ⊢
      rw [Nat.mod_eq_of_lt (by omega)]
      omega
    have hlow : (BitVec.ofNat w (bigEndian (bytes ++ [b]))).extractLsb' 0 8 = b := by
      apply BitVec.eq_of_toNat_eq
      rw [BitVec.extractLsb'_toNat, BitVec.toNat_ofNat, Nat.mod_eq_of_lt hlt, Nat.shiftRight_zero,
        bigEndian_concat]
      omega
    rw [List.length_append, List.length_singleton, updBytes_succ, hshift, hlow, ih (by omega)]

/-! ### `UPD<n>` (R79) -/

/-- The command that `UPD<n> <imm>` stands for, `n` in 1 to 8. -/
def updInstr (n imm : Nat) : Instr :=
  match n with
  | 1 => .upd1 (BitVec.ofNat 8 imm)
  | 2 => .upd2 (BitVec.ofNat 16 imm)
  | 3 => .upd3 (BitVec.ofNat 24 imm)
  | 4 => .upd4 (BitVec.ofNat 32 imm)
  | 5 => .upd5 (BitVec.ofNat 40 imm)
  | 6 => .upd6 (BitVec.ofNat 48 imm)
  | 7 => .upd7 (BitVec.ofNat 56 imm)
  | 8 => .upd8 (BitVec.ofNat 64 imm)
  | _ => .nop

theorem setWidth_ofNat_of_lt {n imm : Nat} (himm : imm < 2 ^ n) :
    (BitVec.ofNat n imm).setWidth 64 = BitVec.ofNat 64 imm := by
  apply BitVec.eq_of_toNat_eq
  rw [BitVec.toNat_setWidth, BitVec.toNat_ofNat, BitVec.toNat_ofNat, Nat.mod_eq_of_lt himm]

section
variable {n imm : Nat} (h1 : 1 ≤ n) (h8 : n ≤ 8)
include h1 h8

theorem messageBytes_updInstr : messageBytes (updInstr n imm) = updBytes n (BitVec.ofNat (8 * n) imm) := by
  interval_cases n <;> rfl

theorem exec_updInstr (s : State) :
    exec (updInstr n imm) s = .next (absorbAll (messageBytes (updInstr n imm)) s) := by
  interval_cases n <;> rfl

theorem updInstr_wellFormed (hv : Harvester) : (updInstr n imm).wellFormed hv = true := by
  interval_cases n <;> rfl

theorem encode_updInstr (himm : imm < 2 ^ (8 * n)) : encode (updInstr n imm) = updWord n imm := by
  have hoperand : (updInstr n imm).operand = BitVec.ofNat 64 imm := by
    rw [← setWidth_ofNat_of_lt himm]
    interval_cases n
    iterate 7 exact rfl
    exact (BitVec.setWidth_eq _).symm
  have hopcode : (updInstr n imm).opcode = BitVec.ofNat 8 (0x0F + n) := by
    interval_cases n <;> rfl
  rw [encode, hoperand, hopcode, updWord]

theorem decode_updWord (hv : Harvester) (himm : imm < 2 ^ (8 * n)) :
    decode hv (updWord n imm) = .command (updInstr n imm) := by
  rw [← encode_updInstr h1 h8 himm]
  exact decode_encode (updInstr_wellFormed h1 h8 hv)

theorem bigEndian_messageBytes_updInstr (himm : imm < 2 ^ (8 * n)) :
    bigEndian (messageBytes (updInstr n imm)) = imm := by
  rw [messageBytes_updInstr h1 h8, bigEndian_updBytes, BitVec.toNat_ofNat, Nat.mod_mod, Nat.mod_eq_of_lt himm]

end

/-- The word of UPD1 to UPD8 with the big-endian value of its bytes absorbs them. -/
theorem performWord_updWord {bytes : List Byte} (h1 : 1 ≤ bytes.length) (h8 : bytes.length ≤ 8) (s : State) :
    performWord (updWord bytes.length (bigEndian bytes)) s = .next (absorbAll bytes s) := by
  rw [performWord_of_command (decode_updWord h1 h8 _ (bigEndian_lt bytes)), exec_updInstr h1 h8,
    messageBytes_updInstr h1 h8, updBytes_bigEndian _ (Nat.le_refl _)]

/-! ### UPDATE and HASH (R80) -/

theorem flatten_groups (bytes : List Byte) (n : Nat) :
    ((List.range n).map fun i => (bytes.drop (8 * i)).take 8).flatten = bytes.take (8 * n) := by
  induction n with
  | zero => simp
  | succ n ih => simp [List.range_succ, ih, Nat.mul_succ, List.take_add]

theorem groupsOf8_flatten (bytes : List Byte) : (groupsOf8 bytes).flatten = bytes.take (8 * (bytes.length / 8)) :=
  flatten_groups bytes _

theorem length_of_mem_groupsOf8 {bytes g : List Byte} (hg : g ∈ groupsOf8 bytes) : g.length = 8 := by
  obtain ⟨i, hi, rfl⟩ := List.mem_map.1 hg
  have hlt : i < bytes.length / 8 := List.mem_range.1 hi
  rw [List.length_take, List.length_drop]
  omega

theorem runWords_groups (groups : List (List Byte)) (h8 : ∀ g ∈ groups, g.length = 8) (s : State) :
    runWords (groups.map fun g => updWord 8 (bigEndian g)) s = .next (absorbAll groups.flatten s) := by
  induction groups generalizing s with
  | nil => rfl
  | cons g rest ih =>
    obtain ⟨hg, hrest⟩ := List.forall_mem_cons.1 h8
    have hword : performWord (updWord 8 (bigEndian g)) s = .next (absorbAll g s) := by
      rw [← hg]
      exact performWord_updWord (by omega) (by omega) s
    rw [List.flatten_cons, absorbAll_append]
    exact (runAll_cons _ hword).trans (ih hrest _)

/-- The words of UPDATE absorb the listed bytes: the full groups of 8, then the rest. -/
theorem runWords_updateWords (bytes : List Byte) (s : State) :
    runWords (updateWords bytes) s = .next (absorbAll bytes s) := by
  have hgroups := runWords_groups (groupsOf8 bytes) (fun g hg => length_of_mem_groupsOf8 hg) s
  rw [groupsOf8_flatten] at hgroups
  by_cases hrest : bytes.length % 8 = 0
  · rw [updateWords, if_pos hrest, List.append_nil, hgroups, List.take_of_length_le (by omega)]
  · have hlen : (bytes.drop (8 * (bytes.length / 8))).length = bytes.length % 8 := by
      rw [List.length_drop]
      omega
    have hlast := performWord_updWord (bytes := bytes.drop (8 * (bytes.length / 8))) (by omega) (by omega)
      (absorbAll (bytes.take (8 * (bytes.length / 8))) s)
    rw [hlen, ← absorbAll_append, List.take_append_drop] at hlast
    rw [updateWords, if_neg hrest]
    exact (runAll_append _ hgroups).trans (runAll_singleton hlast)

/-- Settles O21: the words absorb the bytes, and each byte absorbed is a byte of the message. -/
theorem updatePseudoInstructionAbsorbsItsBytes : Obligations.UpdatePseudoInstructionAbsorbsItsBytes := by
  unfold Obligations.UpdatePseudoInstructionAbsorbsItsBytes
  intro bytes msg s h
  obtain ⟨-, -, -, -, -, -, hout, -⟩ := absorbAll_frame bytes s
  exact ⟨_, _, rfl, runWords_updateWords bytes s, h.absorbAll bytes, hout⟩

theorem performWord_encode {i : Instr} {s : State} (hwf : i.wellFormed s.params.harvester = true) :
    performWord (encode i) s = exec i s :=
  performWord_of_command (decode_encode hwf)

/-- The words of HASH are RESET, those of UPDATE, and DIGEST. -/
theorem runWords_hash (bytes : List Byte) (s : State) :
    runWords ([encode .reset] ++ updateWords bytes ++ [encode .digest]) s =
      .next (resetContext (emit .host (sha256 bytes) (absorbAll bytes (resetContext s)))) := by
  have hreset : performWord (encode .reset) s = .next (resetContext s) := performWord_encode rfl
  have hupdate : runWords ([encode .reset] ++ updateWords bytes) s = .next (absorbAll bytes (resetContext s)) :=
    (runAll_cons _ hreset).trans (runWords_updateWords bytes _)
  have hholds := (holds_nil_of_atCtx0 (resetContext_atCtx0 s)).absorbAll bytes
  rw [List.nil_append] at hholds
  exact (runAll_append _ hupdate).trans (runAll_singleton ((performWord_encode rfl).trans hholds.exec_digest))

/-- Settles O20: RESET gives the context of the empty message, UPDATE that of the bytes, and DIGEST emits their
SHA256. -/
theorem hashPseudoInstructionDeliversSha256 : Obligations.HashPseudoInstructionDeliversSha256 := by
  unfold Obligations.HashPseudoInstructionDeliversSha256
  intro bytes s
  obtain ⟨hparams, herr, hcause, hwin, hns, hsum, hout, hinbox⟩ := absorbAll_frame bytes (resetContext s)
  refine ⟨_, _, rfl, runWords_hash bytes s, resetContext_atCtx0 _, ?_, ⟨herr, hcause⟩, ⟨hwin, hns, hsum⟩,
    ⟨hparams, hinbox⟩⟩
  rw [resetContext_out, emit_out, hout, resetContext_out]

/-! ### Each line's own word, or a refusal (R79) -/

theorem assembleLine_upd {n imm : Nat} (h1 : 1 ≤ n) (h8 : n ≤ 8) (himm : imm < 2 ^ (8 * n)) :
    assembleLine (.upd n imm) = some [updWord n imm] :=
  if_pos ⟨h1, h8, himm⟩

theorem dataField_updWord {n imm : Nat} (h8 : n ≤ 8) (himm : imm < 2 ^ (8 * n)) :
    (dataField (updWord n imm)).toNat = imm := by
  have hlt : imm < 2 ^ 64 := himm.trans_le (Nat.pow_le_pow_right (by decide) (by omega))
  rw [updWord, dataField_rawWord, BitVec.toNat_ofNat, Nat.mod_eq_of_lt hlt]

/-- A line of UPD with an immediate in range is the word of a command with exactly that operand. -/
theorem upd_line {n imm : Nat} (h1 : 1 ≤ n) (h8 : n ≤ 8) (himm : imm < 2 ^ (8 * n)) :
    ∃ w i, assembleLine (.upd n imm) = some [w] ∧ w = encode i ∧ (∀ hv, decode hv w = .command i) ∧
      opField w = BitVec.ofNat 8 (0x0F + n) ∧ (dataField w).toNat = imm ∧
      (messageBytes i).length = n ∧ bigEndian (messageBytes i) = imm :=
  ⟨updWord n imm, updInstr n imm, assembleLine_upd h1 h8 himm, (encode_updInstr h1 h8 himm).symm,
    fun hv => decode_updWord h1 h8 hv himm, opField_rawWord _ _, dataField_updWord h8 himm,
    by rw [messageBytes_updInstr h1 h8, updBytes_length], bigEndian_messageBytes_updInstr h1 h8 himm⟩

theorem upd_line_refused {n imm : Nat} (h : n = 0 ∨ 8 < n ∨ 2 ^ (8 * n) ≤ imm) :
    assembleLine (.upd n imm) = none := by
  refine if_neg ?_
  rintro ⟨h1, h8, himm⟩
  omega

theorem smplWord_eq_encode (d : Int) : smplWord d = encode (.smpl (BitVec.ofInt 64 d)) := rfl

theorem sint64_ofInt {d : Int} (hlow : -(2 ^ 63) ≤ d) (hhigh : d < 2 ^ 63) : sint64 (BitVec.ofInt 64 d) = d := by
  rw [sint64, BitVec.toInt_ofInt]
  exact Int.bmod_eq_of_le (by omega) (by omega)

/-- A line of SMPL with a duration in range is the word of the sample of that duration. -/
theorem smpl_line {d : Int} (hlow : -(2 ^ 63) ≤ d) (hhigh : d < 2 ^ 63) :
    ∃ w data, assembleLine (.smpl d) = some [w] ∧ w = encode (.smpl data) ∧
      decode .present w = .command (.smpl data) ∧ opField w = 0x20#8 ∧
      ((dataField w).toNat : Int) = d % 2 ^ 64 ∧ sint64 data = d := by
  refine ⟨smplWord d, _, if_pos (decide_eq_true ⟨hlow, hhigh⟩), smplWord_eq_encode d, ?_, opField_rawWord _ _, ?_,
    sint64_ofInt hlow hhigh⟩
  · rw [smplWord_eq_encode]
    exact decode_encode rfl
  · rw [smplWord, dataField_rawWord, BitVec.toNat_ofInt]
    omega

theorem smpl_line_refused {d : Int} (h : d < -(2 ^ 63) ∨ 2 ^ 63 ≤ d) : assembleLine (.smpl d) = none := by
  have hrange : ¬ smplRange d = true := by
    rw [smplRange, decide_eq_true_iff]
    omega
  exact if_neg hrange

theorem cw_line {op data : Nat} (hop : op < 256) (hdata : data < 2 ^ 64) :
    ∃ w, assembleLine (.cw op data) = some [w] ∧ (opField w).toNat = op ∧ (dataField w).toNat = data := by
  refine ⟨_, if_pos ⟨hop, hdata⟩, ?_, ?_⟩
  · rw [opField_rawWord, BitVec.toNat_ofNat, Nat.mod_eq_of_lt hop]
  · rw [dataField_rawWord, BitVec.toNat_ofNat, Nat.mod_eq_of_lt hdata]

theorem cw_line_refused {op data : Nat} (h : 256 ≤ op ∨ 2 ^ 64 ≤ data) : assembleLine (.cw op data) = none := by
  refine if_neg ?_
  rintro ⟨hop, hdata⟩
  omega

/-- Settles O53, one law for each form of line and one for what it refuses. -/
theorem assemblerEncodesOrRefuses : Obligations.AssemblerEncodesOrRefuses := by
  unfold Obligations.AssemblerEncodesOrRefuses
  exact ⟨⟨rfl, by decide, rfl, by decide, rfl, by decide⟩, fun n imm => upd_line, fun n imm => upd_line_refused,
    fun d => smpl_line, fun d => smpl_line_refused, fun op data => cw_line, fun op data => cw_line_refused⟩

end Sys2Proof.Machine

/-! PROOF. Sequences of samples (42_harvester.md R186 to R189). A run of SMPL commands is followed sample by sample: what
it makes depends on the harvester alone, equal durations give ones, and the invariant counts the records of a `run()`. -/

namespace Sys2Proof.Machine

open Sys2Proof.Claims

/-! ### The records are determined (R189) -/

theorem runInstrs_smpl_agrees (durations : List Word64) {s₁ s₂ : State} (hp : s₁.params = s₂.params)
    (hh : s₁.sameHarvester s₂) :
    ∃ t₁ t₂ rs, runInstrs (durations.map .smpl) s₁ = .next t₁ ∧
      runInstrs (durations.map .smpl) s₂ = .next t₂ ∧ t₁.sameHarvester t₂ ∧
      t₁.out = s₁.out ++ rs ∧ t₂.out = s₂.out ++ rs := by
  induction durations generalizing s₁ s₂ with
  | nil => exact ⟨s₁, s₂, [], rfl, rfl, hh, by simp, by simp⟩
  | cons data rest ih =>
    obtain ⟨u₁, h₁⟩ := exec_next (.smpl data) s₁
    obtain ⟨u₂, h₂⟩ := exec_next (.smpl data) s₂
    obtain ⟨-, hharv, rs, hout₁, hout₂⟩ := exec_smpl_agrees hp hh h₁ h₂
    have hparams : u₁.params = u₂.params := by rw [(exec_sameHost h₁).1, (exec_sameHost h₂).1, hp]
    obtain ⟨t₁, t₂, rs', hrun₁, hrun₂, hharv', hout₁', hout₂'⟩ := ih hparams hharv
    exact ⟨t₁, t₂, rs ++ rs', (runAll_cons _ h₁).trans hrun₁, (runAll_cons _ h₂).trans hrun₂, hharv',
      by rw [hout₁', hout₁, List.append_assoc], by rw [hout₂', hout₂, List.append_assoc]⟩

/-- Settles O39: this is `runInstrs_smpl_agrees`, by induction on the durations. -/
theorem sampleRecordsAreDetermined : Obligations.SampleRecordsAreDetermined := by
  unfold Obligations.SampleRecordsAreDetermined
  exact fun durations s₁ s₂ hp hh => runInstrs_smpl_agrees durations hp hh

/-! ### Equal durations (R187) -/

theorem sha256_ones : sha256 (List.replicate 64 0xFF#8) =
    0x8667e718294e9e0df1d30600ba3eeb201f764aad2dad72748643e4a285e1d1f7#256 := by decide +kernel

theorem packByte_ones {j : Nat} (hj : j < 64) : packByte (List.replicate 512 true) j = 0xFF#8 := by
  have hbits : (fun k : Fin 8 => (List.replicate 512 true).getD (8 * j + k.val) false) = fun _ => true :=
    funext fun k => List.getD_replicate _ (by omega)
  rw [packByte_eq_ofFnBE, hbits]
  decide

theorem pack_ones : (pack (List.replicate 512 true)).toList = List.replicate 64 0xFF#8 := by
  have hpack : pack (List.replicate 512 true) = Vector.replicate 64 0xFF#8 := by
    refine Vector.ext fun j hj => ?_
    rw [getElem_pack _ _ hj, packByte_ones hj, Vector.getElem_replicate]
  rw [hpack, Vector.toList_replicate]

/-- The record of a window of ones. -/
def onesRecord : Record :=
  { src := .harv
    data := 0x8667e718294e9e0df1d30600ba3eeb201f764aad2dad72748643e4a285e1d1f7#256 }

theorem pushBit_ones (n : Nat) :
    pushBit (List.replicate (min n 512) true) true = List.replicate (min (n + 1) 512) true := by
  have hcap : winCapacity = 512 := rfl
  unfold pushBit
  split
  · next hfull =>
    rw [List.length_replicate] at hfull
    rw [List.drop_replicate, ← List.replicate_succ']
    congr 1
    omega
  · next hroom =>
    rw [List.length_replicate] at hroom
    rw [← List.replicate_succ']
    congr 1
    omega

/-- A sample equal to the mean gives a one: `d · (n + 1) < n · d + d` does not hold. -/
theorem meanBit_exact_of_equal (d : Int) (n : Nat) : meanBit .exact d (n + 1) (n * d + d) = true := by
  rw [← Bool.not_eq_false, meanBit_exact_eq_false_iff, Nat.cast_succ, Int.mul_add, Int.mul_comm, Int.mul_one]
  exact lt_irrefl _

/-- What `n` equal durations `d`, taken from no samples, make of a block in state `s`. -/
structure AfterEqualSamples (s : State) (d : Int) (n : Nat) (t : State) : Prop where
  params : t.params = s.params
  ns : t.ns.toNat = n
  sum : t.sum = n * d
  win : t.win = List.replicate (min n 512) true
  out : t.out = s.out ++ List.replicate (n - 511) onesRecord

theorem AfterEqualSamples.takeSample {s t : State} {d : Int} {n : Nat} (h : AfterEqualSamples s d n t)
    (hcmp : s.params.meanCmp = .exact) (hn : n + 1 < 2 ^ 64) : AfterEqualSamples s d (n + 1) (takeSample d t) := by
  have hne : t.ns ≠ BitVec.allOnes 64 := by
    rw [BitVec.toNat_ne, h.ns, BitVec.toNat_allOnes]
    omega
  have hcount : (t.ns + 1#64).toNat = n + 1 := by rw [toNat_add_one_of_ne_allOnes hne, h.ns]
  obtain ⟨win, hwin, htake⟩ := takeSample_of_ne d t hne
  have hones : win = List.replicate (min (n + 1) 512) true := by
    rw [hwin, h.params, hcmp, hcount, h.sum, meanBit_exact_of_equal, h.win, pushBit_ones]
  have hcap : winCapacity = 512 := rfl
  rw [htake]
  refine ⟨h.params, hcount, ?_, hones, ?_⟩
  · simp only [h.sum]
    push_cast
    ring
  · simp only [h.out, List.append_assoc, hones, List.length_replicate, hcap]
    refine congrArg (s.out ++ ·) ?_
    by_cases hfull : min (n + 1) 512 = 512
    · have hlen : n + 1 - 511 = n - 511 + 1 := by omega
      rw [if_pos hfull, hfull, pack_ones, sha256_ones, hlen, List.replicate_succ', onesRecord]
    · have hlen : n + 1 - 511 = n - 511 := by omega
      rw [if_neg hfull, List.append_nil, hlen]

theorem runInstrs_equal_samples {s : State} {data : Word64} {n : Nat} (hp : s.params.harvester = .present)
    (hcmp : s.params.meanCmp = .exact) (hwin : s.win = []) (hns : s.ns = 0#64) (hsum : s.sum = 0)
    (hn : n < 2 ^ 64) :
    ∃ t, runInstrs (List.replicate n (.smpl data)) s = .next t ∧ AfterEqualSamples s data.toInt n t := by
  induction n with
  | zero => exact ⟨s, rfl, rfl, by rw [hns]; rfl, by simp [hsum], by simp [hwin], by simp⟩
  | succ n ih =>
    obtain ⟨t, hrun, hafter⟩ := ih (by omega)
    have hexec : exec (.smpl data) t = .next (takeSample data.toInt t) :=
      exec_smpl_of_present data (hafter.params ▸ hp)
    rw [List.replicate_succ']
    exact ⟨_, (runAll_append _ hrun).trans (runAll_singleton hexec), hafter.takeSample hcmp hn⟩

/-- Settles O37: the run is followed by `AfterEqualSamples`, whose record is the digest of 64 bytes 0xFF. -/
theorem constantDurationsGiveOnes : Obligations.ConstantDurationsGiveOnes := by
  unfold Obligations.ConstantDurationsGiveOnes
  intro data n s hp hcmp hwin hns hsum hn
  obtain ⟨t, hrun, hafter⟩ := runInstrs_equal_samples hp hcmp hwin hns hsum hn
  exact ⟨t, hrun, hafter.ns, hafter.sum, hafter.win, hafter.out⟩

/-! ### The host's run() (R186, R188) -/

theorem takeSample_out {d : Int} {s : State} (hns : s.ns ≠ BitVec.allOnes 64) :
    ∃ rs, (takeSample d s).out = s.out ++ rs ∧ ∀ r ∈ rs, r.src = .harv := by
  obtain ⟨win, -, htake⟩ := takeSample_of_ne d s hns
  rw [htake]
  refine ⟨_, rfl, fun r hr => ?_⟩
  split at hr
  · rw [List.mem_singleton.1 hr]
  · cases hr

theorem takeSample_ns {d : Int} {s : State} (hns : s.ns ≠ BitVec.allOnes 64) :
    (takeSample d s).ns.toNat = s.ns.toNat + 1 := by
  obtain ⟨win, -, htake⟩ := takeSample_of_ne d s hns
  rw [htake]
  exact toNat_add_one_of_ne_allOnes hns

/-- Samples below the last sample number are all counted, keep the invariant, and make HARV records only. -/
theorem runInstrs_smpl_inv {durations : List Word64} {s : State} (h : s.Inv) (hp : s.params.harvester = .present)
    (hlt : s.ns.toNat + durations.length < 2 ^ 64) :
    ∃ t rs, runInstrs (durations.map .smpl) s = .next t ∧ t.Inv ∧
      t.ns.toNat = s.ns.toNat + durations.length ∧ t.out = s.out ++ rs ∧ ∀ r ∈ rs, r.src = .harv := by
  induction durations generalizing s with
  | nil => exact ⟨s, [], rfl, h, rfl, (List.append_nil _).symm, by simp⟩
  | cons data rest ih =>
    rw [List.length_cons] at hlt
    have hns : s.ns ≠ BitVec.allOnes 64 := by
      rw [BitVec.toNat_ne, BitVec.toNat_allOnes]
      omega
    have hcount := takeSample_ns (d := sint64 data) hns
    obtain ⟨rs, hout, hharv⟩ := takeSample_out (d := sint64 data) hns
    obtain ⟨t, rs', hrun, hinv, hcount', hout', hharv'⟩ := ih (takeSample_inv h hp hns)
      ((takeSample_sameHost (sint64 data) s).1 ▸ hp) (by omega)
    refine ⟨t, rs ++ rs', (runAll_cons _ (exec_smpl_of_present data hp)).trans hrun, hinv, ?_, ?_,
      fun r hr => (List.mem_append.1 hr).elim (hharv r) (hharv' r)⟩
    · rw [hcount', hcount, List.length_cons]
      omega
    · rw [hout', hout, List.append_assoc]

theorem harvRecords_of_out {s t : State} {rs : List Record} (hout : t.out = s.out ++ rs)
    (hharv : ∀ r ∈ rs, r.src = .harv) : harvRecords s t = rs := by
  rw [harvRecords, hout, List.drop_left]
  exact List.filter_eq_self.2 fun r hr => decide_eq_true (hharv r hr)

/-- The invariant counts the records made between two sample numbers (R186). -/
theorem length_harv_records {s t : State} {rs : List Record} (hs : s.Inv) (ht : t.Inv)
    (hout : t.out = s.out ++ rs) (hharv : ∀ r ∈ rs, r.src = .harv) :
    rs.length = (t.ns.toNat - 511) - (s.ns.toNat - 511) := by
  have hcount : t.harvCount = s.harvCount + rs.length := by
    rw [State.harvCount, hout, List.countP_append, State.harvCount]
    exact congrArg _ (List.countP_eq_length.2 fun r hr => decide_eq_true (hharv r hr))
  rw [← ht.yield, ← hs.yield, hcount, Nat.add_sub_cancel_left]

theorem length_flatMap_binString (rs : List Record) :
    (rs.flatMap fun r => binString r.data).length = 256 * rs.length := by
  simp [List.length_flatMap, Nat.mul_comm]

theorem mem_binString {c : Char} {d : DigestWord} (hc : c ∈ binString d) : c = '0' ∨ c = '1' := by
  obtain ⟨i, -, rfl⟩ := List.mem_map.1 hc
  unfold bitChar
  split
  · exact .inr rfl
  · exact .inl rfl

/-- A run below the last sample number returns 256 binary digits for every sample from the 512th of the block's life
on. -/
theorem hostRun_of_inv {durations : List Word64} {s : State} (h : s.Inv) (hp : s.params.harvester = .present)
    (hlt : s.ns.toNat + durations.length < 2 ^ 64) :
    ∃ t cs, hostRun durations s = some (t, cs) ∧
      cs.length = 256 * ((s.ns.toNat + durations.length - 511) - (s.ns.toNat - 511)) ∧
      ∀ c ∈ cs, c = '0' ∨ c = '1' := by
  obtain ⟨t, rs, hrun, hinv, hcount, hout, hharv⟩ := runInstrs_smpl_inv h hp hlt
  refine ⟨t, rs.flatMap fun r => binString r.data, ?_, ?_, fun c hc => ?_⟩
  · rw [← harvRecords_of_out hout hharv, hostRun, hrun]
  · rw [length_flatMap_binString, length_harv_records h hinv hout hharv, hcount]
  · obtain ⟨r, -, hbin⟩ := List.mem_flatMap.1 hc
    exact mem_binString hbin

/-- Settles O38: `(0 + 1000 − 511) − 0 = 489`, and 1000 once NS is past 511. -/
theorem hostRunYieldsWholeBlocks : Obligations.HostRunYieldsWholeBlocks := by
  unfold Obligations.HostRunYieldsWholeBlocks
  have hiter : pIter = 1000 := rfl
  refine ⟨fun durations s h hp hlt => hostRun_of_inv h hp hlt, fun durations s h hp hlen hns => ?_,
    fun durations s h hp hlen hlater hlt => ?_⟩
  · have hzero : s.ns.toNat = 0 := by rw [hns]; rfl
    obtain ⟨t, cs, hrun, hcs, -⟩ := hostRun_of_inv (durations := durations) h hp (by omega)
    exact ⟨t, cs, hrun, by omega⟩
  · obtain ⟨t, cs, hrun, hcs, -⟩ := hostRun_of_inv (durations := durations) h hp (by omega)
    exact ⟨t, cs, hrun, by omega⟩

end Sys2Proof.Machine
